-- ==== Sys2Proof/Word.lean ====
section
/-! DEFINITION. The widths of the block's values: the fixed parameters of 00_scope.md R6. -/

namespace Sys2Proof

/-- `WORD_WIDTH`, R6: the instruction word, 16 bits, bit 15 the most significant (R7). -/
abbrev Word := BitVec 16

/-- One byte of the instruction stream, 20_memory.md R40. -/
abbrev Byte := BitVec 8

/-- One of the four 4-bit fields of a word, R6 and R8; also the 4-bit immediate of DRW. -/
abbrev Nibble := BitVec 4

/-- `REG_INDEX_WIDTH`, R6: `vx` or `vy`, the index of one of the consumer's 16 registers. -/
abbrev RegIdx := BitVec 4

/-- The index port of the nibble extractor, 10_state.md R30: two wires, so no index outside 0..3. -/
abbrev NibIdx := BitVec 2

/-- The 12-bit address immediate, R6. -/
abbrev Addr := BitVec 12

/-- `OP_WIDTH`, R6: the code on the `op` bus. -/
abbrev OpCode := BitVec 6

end Sys2Proof
end

