-- ==== Sys2Proof/Syntax.lean ====
section
/-! DEFINITION. The closed set of operator tags, the decoded record, the output wires, and the
instructions: one constructor for each row of spec/opcode_table.json. -/

namespace Sys2Proof

/-- The operator tags of 10_state.md R24, in the order of their codes 1 to 35.
JP and ADDI are members that no word produces (30_encoding.md R71). -/
inductive Tag
  | CLS | RET | JP | JPI | JPO | CALL | SE | SEI | SNE | SNEI | STI | LD | LDI | ADD | ADDI
  | OR | AND | XOR | SUB | SHR | SUBN | SHL | RND | DRW | SKP | SKNP
  | LD_VX_DT | LD_VX_K | LD_DT_VX | LD_ST_VX | ADD_I_VX | LD_F_VX | LD_B_VX
  | LD_MEM_VX | LD_VX_MEM
  deriving DecidableEq, Repr

/-- The decoded instruction, 00_scope.md R10: four optional fields. `op = none` says that the word
matched no pattern. An immediate is held at the width of its bus (10_state.md R29). -/
structure Decoded where
  op  : Option Tag
  vx  : Option RegIdx
  vy  : Option RegIdx
  imm : Option Word
  deriving DecidableEq, Repr

/-- The output wires of `instruction_decoder` in the order of the port table of 10_state.md R26. -/
structure Ports where
  opValid  : Bool
  op       : OpCode
  vxValid  : Bool
  vx       : RegIdx
  vyValid  : Bool
  vy       : RegIdx
  immValid : Bool
  imm      : Word
  deriving DecidableEq, Repr, Inhabited

/-- One constructor per row of spec/opcode_table.json, in the table's order, with the fields the
row's format reads (30_encoding.md R63). The two rows ADD are `addByte` (R121) and `addReg` (R126). -/
inductive Instr
  /-- R100: the exact word 0x00EE. -/
  | ret
  /-- R101: `0001 nnnn nnnn nnnn`. -/
  | jpi (nnn : Addr)
  /-- R102: `0010 nnnn nnnn nnnn`. -/
  | call (nnn : Addr)
  /-- R103: `1011 nnnn nnnn nnnn`. -/
  | jpo (nnn : Addr)
  /-- R110: `0011 xxxx kkkk kkkk`. -/
  | sei (x : RegIdx) (kk : Byte)
  /-- R111: `0100 xxxx kkkk kkkk`. -/
  | snei (x : RegIdx) (kk : Byte)
  /-- R112: `0101 xxxx yyyy ----`; no part of the decode reads nibble 3 (R74). -/
  | se (x y : RegIdx)
  /-- R113: `1001 xxxx yyyy ----`; no part of the decode reads nibble 3 (R74). -/
  | sne (x y : RegIdx)
  /-- R114: `1110 xxxx 1001 1110`. -/
  | skp (x : RegIdx)
  /-- R115: `1110 xxxx 1010 0001`. -/
  | sknp (x : RegIdx)
  /-- R120: `0110 xxxx kkkk kkkk`. -/
  | ldi (x : RegIdx) (kk : Byte)
  /-- R121, ADD of family 7: `0111 xxxx kkkk kkkk`. -/
  | addByte (x : RegIdx) (kk : Byte)
  /-- R122: `1000 xxxx yyyy 0000`. -/
  | ld (x y : RegIdx)
  /-- R123: `1000 xxxx yyyy 0001`. -/
  | or (x y : RegIdx)
  /-- R124: `1000 xxxx yyyy 0010`. -/
  | and (x y : RegIdx)
  /-- R125: `1000 xxxx yyyy 0011`. -/
  | xor (x y : RegIdx)
  /-- R126, ADD of family 8: `1000 xxxx yyyy 0100`. -/
  | addReg (x y : RegIdx)
  /-- R127: `1000 xxxx yyyy 0101`. -/
  | sub (x y : RegIdx)
  /-- R128: `1000 xxxx yyyy 0110`. -/
  | shr (x y : RegIdx)
  /-- R129: `1000 xxxx yyyy 0111`. -/
  | subn (x y : RegIdx)
  /-- R130: `1000 xxxx yyyy 1111`; sub-opcode 0xF, not 0xE (R73). -/
  | shl (x y : RegIdx)
  /-- R131: `1100 xxxx kkkk kkkk`. -/
  | rnd (x : RegIdx) (kk : Byte)
  /-- R140: `1010 nnnn nnnn nnnn`. -/
  | sti (nnn : Addr)
  /-- R141, ADD_I_VX: `1111 xxxx 0001 1110`. -/
  | addIVx (x : RegIdx)
  /-- R142, LD_F_VX: `1111 xxxx 0010 1001`. -/
  | ldFVx (x : RegIdx)
  /-- R143, LD_B_VX: `1111 xxxx 0011 0011`. -/
  | ldBVx (x : RegIdx)
  /-- R144, LD_MEM_VX: `1111 xxxx 0101 0101`. -/
  | ldMemVx (x : RegIdx)
  /-- R145, LD_VX_MEM: `1111 xxxx 0110 0101`. -/
  | ldVxMem (x : RegIdx)
  /-- R150, LD_VX_DT: `1111 xxxx 0000 0111`. -/
  | ldVxDt (x : RegIdx)
  /-- R151, LD_DT_VX: `1111 xxxx 0001 0101`. -/
  | ldDtVx (x : RegIdx)
  /-- R152, LD_ST_VX: `1111 xxxx 0001 1000`. -/
  | ldStVx (x : RegIdx)
  /-- R160: the exact word 0x00E0. -/
  | cls
  /-- R161: `1101 xxxx yyyy nnnn`. -/
  | drw (x y : RegIdx) (n : Nibble)
  /-- R162, LD_VX_K: `1111 xxxx 0000 1010`. -/
  | ldVxK (x : RegIdx)
  /-- R68, the table's row "(fallback)": a word that no other row matches, whole. -/
  | fallback (w : Word)
  deriving DecidableEq, Repr

end Sys2Proof
end

