-- ==== Sys2Proof/Decode.lean ====
section
/-! DEFINITION. Field extraction, word assembly, the dispatch of 30_encoding.md R66 from a word to an
instruction, and after it the encoder. -/

namespace Sys2Proof

/-! ### Byte order and word assembly, 20_memory.md -/

/-- R40: the first byte of a pair is the high byte. -/
def wordOfBytes (high low : Byte) : Word := high ++ low

/-- R40: `word[15:8]`, the first byte of the word in the stream. -/
def highByte (w : Word) : Byte := w.extractLsb' 8 8

/-- R40 and R8: `word[7:0]`, the second byte of the word in the stream. -/
def lowByte (w : Word) : Byte := w.extractLsb' 0 8

/-- R42: the words at even offsets of a byte stream; an odd trailing byte is dropped. -/
def wordsOfStream : List Byte → List Word
  | high :: low :: rest => wordOfBytes high low :: wordsOfStream rest
  | _ => []

/-- The bytes of a sequence of words in stream order (R40, R41). -/
def bytesOfWords (ws : List Word) : List Byte :=
  ws.flatMap fun w => [highByte w, lowByte w]

/-! ### Fields, 00_scope.md R8 and 30_encoding.md R61, R62 -/

/-- R8 and R61: nibble `i` is `w[15-4i : 12-4i]`, nibble 0 the most significant. -/
def nib (w : Word) (i : NibIdx) : Nibble := w.extractLsb' (12 - 4 * i.toNat) 4

/-- R62: the family selector. -/
def fieldF (w : Word) : Nibble := nib w 0#2

/-- R62: the `vx` source. -/
def fieldX (w : Word) : RegIdx := nib w 1#2

/-- R62: the `vy` source. -/
def fieldY (w : Word) : RegIdx := nib w 2#2

/-- R62: nibble 3, "right". -/
def fieldN (w : Word) : Nibble := nib w 3#2

/-- R62: the low byte. -/
def fieldKK (w : Word) : Byte := w.extractLsb' 0 8

/-- R62: the low 12 bits. -/
def fieldNNN (w : Word) : Addr := w.extractLsb' 0 12

/-! ### Dispatch -/

/-- R66, family 8: the operator is chosen by nibble 3; 0x8..0xE is unmatched. -/
def decodeFamily8 (w : Word) : Instr :=
  match fieldN w with
  | 0x0#4 => .ld (fieldX w) (fieldY w)
  | 0x1#4 => .or (fieldX w) (fieldY w)
  | 0x2#4 => .and (fieldX w) (fieldY w)
  | 0x3#4 => .xor (fieldX w) (fieldY w)
  | 0x4#4 => .addReg (fieldX w) (fieldY w)
  | 0x5#4 => .sub (fieldX w) (fieldY w)
  | 0x6#4 => .shr (fieldX w) (fieldY w)
  | 0x7#4 => .subn (fieldX w) (fieldY w)
  | 0xF#4 => .shl (fieldX w) (fieldY w)
  | _ => .fallback w

/-- R66, family 14: the operator is chosen by the low byte. -/
def decodeFamilyE (w : Word) : Instr :=
  match fieldKK w with
  | 0x9E#8 => .skp (fieldX w)
  | 0xA1#8 => .sknp (fieldX w)
  | _ => .fallback w

/-- R66, family 15: the operator is chosen by the low byte, nine of which are recognised. -/
def decodeFamilyF (w : Word) : Instr :=
  match fieldKK w with
  | 0x07#8 => .ldVxDt (fieldX w)
  | 0x0A#8 => .ldVxK (fieldX w)
  | 0x15#8 => .ldDtVx (fieldX w)
  | 0x18#8 => .ldStVx (fieldX w)
  | 0x1E#8 => .addIVx (fieldX w)
  | 0x29#8 => .ldFVx (fieldX w)
  | 0x33#8 => .ldBVx (fieldX w)
  | 0x55#8 => .ldMemVx (fieldX w)
  | 0x65#8 => .ldVxMem (fieldX w)
  | _ => .fallback w

/-- R66, step 2: the family selector. Family 0 has no pattern besides the exact words of step 1. -/
def decodeFamily (w : Word) : Instr :=
  match fieldF w with
  | 0x1#4 => .jpi (fieldNNN w)
  | 0x2#4 => .call (fieldNNN w)
  | 0x3#4 => .sei (fieldX w) (fieldKK w)
  | 0x4#4 => .snei (fieldX w) (fieldKK w)
  | 0x5#4 => .se (fieldX w) (fieldY w)
  | 0x6#4 => .ldi (fieldX w) (fieldKK w)
  | 0x7#4 => .addByte (fieldX w) (fieldKK w)
  | 0x8#4 => decodeFamily8 w
  | 0x9#4 => .sne (fieldX w) (fieldY w)
  | 0xA#4 => .sti (fieldNNN w)
  | 0xB#4 => .jpo (fieldNNN w)
  | 0xC#4 => .rnd (fieldX w) (fieldKK w)
  | 0xD#4 => .drw (fieldX w) (fieldY w) (fieldN w)
  | 0xE#4 => decodeFamilyE w
  | 0xF#4 => decodeFamilyF w
  | _ => .fallback w

/-- R66 and R67: every word selects exactly one instruction, the two exact words first; a word that
no pattern matches is the fallback (R68), which is an instruction here and never an error. -/
def decodeWord (w : Word) : Instr :=
  if w = 0x00E0#16 then .cls
  else if w = 0x00EE#16 then .ret
  else decodeFamily w

/-- Why bytes hold no instruction. `partialWord`: fewer than two bytes; the block never sees a partial
word (R42), so nothing is decoded from one. Safe. Log entry 7. -/
inductive DecodeReject
  | partialWord
  deriving DecidableEq, Repr

/-- The first instruction of a byte sequence and the bytes after it: total on any bytes. -/
def decodeBytes : List Byte → Except DecodeReject (Instr × List Byte)
  | high :: low :: rest => .ok (decodeWord (wordOfBytes high low), rest)
  | _ => .error .partialWord

/-- The host's view of the decoder: `w` numbered as spec/opcode_table.json numbers bits. One
instruction is one 16-bit word (R60), laid out with its high byte first (R40). -/
def decodeTableWord (nbits w : Nat) : Option Instr :=
  let word : Word := BitVec.ofNat 16 (w % 2 ^ nbits)
  match decodeBytes [highByte word, lowByte word] with
  | .ok (i, _) => some i
  | .error _ => none

/-! ### Encoder

The spec has no assembler (30_encoding.md R83): the encoder is the model's own, written from the
formats of R63 to state that no bit of an encoding is dropped. -/

/-- Format `A` of R63. -/
def wordA (f : Nibble) (nnn : Addr) : Word := f ++ nnn

/-- Formats `XK` and `XS` of R63: family, register, low byte. -/
def wordXK (f : Nibble) (x : RegIdx) (kk : Byte) : Word := (f ++ x : BitVec 8) ++ kk

/-- Formats `XY-`, `XYS` and `XYN` of R63: family, two registers, nibble 3. -/
def wordXYN (f : Nibble) (x y : RegIdx) (n : Nibble) : Word :=
  (f ++ x : BitVec 8) ++ (y ++ n : BitVec 8)

/-- The word of an instruction. For `se` and `sne`, whose nibble 3 nothing reads (R74), the word with
nibble 3 equal to 0 is chosen: DESIGN CHOICE, log entry 6. -/
def encode (i : Instr) : Word :=
  match i with
  | .ret => 0x00EE#16
  | .jpi nnn => wordA 0x1#4 nnn
  | .call nnn => wordA 0x2#4 nnn
  | .jpo nnn => wordA 0xB#4 nnn
  | .sei x kk => wordXK 0x3#4 x kk
  | .snei x kk => wordXK 0x4#4 x kk
  | .se x y => wordXYN 0x5#4 x y 0x0#4
  | .sne x y => wordXYN 0x9#4 x y 0x0#4
  | .skp x => wordXK 0xE#4 x 0x9E#8
  | .sknp x => wordXK 0xE#4 x 0xA1#8
  | .ldi x kk => wordXK 0x6#4 x kk
  | .addByte x kk => wordXK 0x7#4 x kk
  | .ld x y => wordXYN 0x8#4 x y 0x0#4
  | .or x y => wordXYN 0x8#4 x y 0x1#4
  | .and x y => wordXYN 0x8#4 x y 0x2#4
  | .xor x y => wordXYN 0x8#4 x y 0x3#4
  | .addReg x y => wordXYN 0x8#4 x y 0x4#4
  | .sub x y => wordXYN 0x8#4 x y 0x5#4
  | .shr x y => wordXYN 0x8#4 x y 0x6#4
  | .subn x y => wordXYN 0x8#4 x y 0x7#4
  | .shl x y => wordXYN 0x8#4 x y 0xF#4
  | .rnd x kk => wordXK 0xC#4 x kk
  | .sti nnn => wordA 0xA#4 nnn
  | .addIVx x => wordXK 0xF#4 x 0x1E#8
  | .ldFVx x => wordXK 0xF#4 x 0x29#8
  | .ldBVx x => wordXK 0xF#4 x 0x33#8
  | .ldMemVx x => wordXK 0xF#4 x 0x55#8
  | .ldVxMem x => wordXK 0xF#4 x 0x65#8
  | .ldVxDt x => wordXK 0xF#4 x 0x07#8
  | .ldDtVx x => wordXK 0xF#4 x 0x15#8
  | .ldStVx x => wordXK 0xF#4 x 0x18#8
  | .cls => 0x00E0#16
  | .drw x y n => wordXYN 0xD#4 x y n
  | .ldVxK x => wordXK 0xF#4 x 0x0A#8
  | .fallback w => w

/-- Every word that stands for an instruction: the 16 words that differ in nibble 3 for `se` and
`sne` (R74), and the one word of `encode` for every other. -/
def encodings (i : Instr) : List Word :=
  match i with
  | .se x y => (List.range 16).map fun n => wordXYN 0x5#4 x y (BitVec.ofNat 4 n)
  | .sne x y => (List.range 16).map fun n => wordXYN 0x9#4 x y (BitVec.ofNat 4 n)
  | i => [encode i]

end Sys2Proof
end

