-- ==== Sys2Proof/Machine/State.lean ====
section
/-! DEFINITION. The wires of the blocks at a sampling point and the words the environment is about to
present. The blocks hold no architectural state (10_state.md R20): no register, flag, program
counter, memory or mode stands here because the spec gives them none. -/

namespace Sys2Proof.Machine

/-- The ports of the sub-block `nibble_extractor` (10_state.md R30), an instance of its own with its own
inputs (00_scope.md R3). -/
structure NibbleExtractor where
  word : Word
  idx  : NibIdx
  nib  : Nibble
  deriving DecidableEq, Repr

/-- One sampling point (70_reset_and_hazards.md R193). `pending` and `nxPending` are the environment's,
not the blocks': the words, and the extractor's word and index pairs, still to be presented, the next
one first (20_memory.md R47; log entry 2). -/
structure State where
  /-- `word[15:0]`, the decoder's input port, R26. -/
  word      : Word
  /-- The decoder's output ports, R26. -/
  out       : Ports
  /-- The nibble extractor's ports, R30. -/
  nx        : NibbleExtractor
  /-- The words the environment presents to the decoder from here on, in stream order. -/
  pending   : List Word
  /-- The inputs the environment presents to the nibble extractor from here on. -/
  nxPending : List (Word × NibIdx)
  deriving DecidableEq, Repr

/-- Why the machine stops with a fault. It has no constructor: the block raises no exception and has no
fault output (60_exceptions.md R170), so nobody raises one. Log entry 5. -/
inductive Fault : Type
  deriving DecidableEq, Repr

/-- Why an instruction is refused. -/
inductive Refusal
  /-- Raised by the dispatch for an instruction that has no meaning yet. Safe. No arm raises it. -/
  | notModelled (mnemonic : String)
  deriving DecidableEq, Repr

/-- Directly after power is applied (70_reset_and_hazards.md R190): the outputs are the encoding of the
decode of the word on the input. The spec gives the input no value (10_state.md R35); 0x0000 on both
blocks' inputs and index 0 are DESIGN CHOICE, log entries 1 and 3. No word is pending. -/
def State.reset : State where
  word      := 0x0000#16
  out       := { opValid := false, op := 0#6, vxValid := false, vx := 0#4,
                 vyValid := false, vy := 0#4, immValid := true, imm := 0x0000#16 }
  nx        := { word := 0x0000#16, idx := 0#2, nib := 0#4 }
  pending   := []
  nxPending := []

end Sys2Proof.Machine
end

