-- ==== Sys2Proof/Machine/Flags.lean ====
section
/-! DEFINITION. The one-bit `_valid` wires. The block has no flag and no condition code (10_state.md
R23), and no instruction rule writes one; these wires are the only one-bit outputs. -/

namespace Sys2Proof.Machine

/-- R27: a `_valid` wire is 1 exactly when the field is present. -/
def validWire {w : Nat} (field : Option (BitVec w)) : Bool := field.isSome

/-- R27: `op_valid` is 1 exactly when an operator is present. -/
def opValidWire (op : Option Tag) : Bool := op.isSome

end Sys2Proof.Machine
end

