-- ==== Sys2Proof/Machine/Operands.lean ====
section
/-! DEFINITION. The codes of the tags, the buses of optional fields, the immediates, and the operand
shape of each format. -/

namespace Sys2Proof.Machine

/-- The code of a tag on the `op` bus, 10_state.md R24. -/
def tagCode (t : Tag) : OpCode :=
  match t with
  | .CLS => 1#6
  | .RET => 2#6
  | .JP => 3#6
  | .JPI => 4#6
  | .JPO => 5#6
  | .CALL => 6#6
  | .SE => 7#6
  | .SEI => 8#6
  | .SNE => 9#6
  | .SNEI => 10#6
  | .STI => 11#6
  | .LD => 12#6
  | .LDI => 13#6
  | .ADD => 14#6
  | .ADDI => 15#6
  | .OR => 16#6
  | .AND => 17#6
  | .XOR => 18#6
  | .SUB => 19#6
  | .SHR => 20#6
  | .SUBN => 21#6
  | .SHL => 22#6
  | .RND => 23#6
  | .DRW => 24#6
  | .SKP => 25#6
  | .SKNP => 26#6
  | .LD_VX_DT => 27#6
  | .LD_VX_K => 28#6
  | .LD_DT_VX => 29#6
  | .LD_ST_VX => 30#6
  | .ADD_I_VX => 31#6
  | .LD_F_VX => 32#6
  | .LD_B_VX => 33#6
  | .LD_MEM_VX => 34#6
  | .LD_VX_MEM => 35#6

/-- The 35 tags in the order of their codes, R24. -/
def allTags : List Tag :=
  [.CLS, .RET, .JP, .JPI, .JPO, .CALL, .SE, .SEI, .SNE, .SNEI, .STI, .LD, .LDI, .ADD, .ADDI] ++
  [.OR, .AND, .XOR, .SUB, .SHR, .SUBN, .SHL, .RND, .DRW, .SKP, .SKNP] ++
  [.LD_VX_DT, .LD_VX_K, .LD_DT_VX, .LD_ST_VX, .ADD_I_VX, .LD_F_VX, .LD_B_VX, .LD_MEM_VX, .LD_VX_MEM]

/-- The tag a code stands for; none for code 0 (NONE) and for the codes 36 to 63 that are never driven. -/
def tagOfCode (c : OpCode) : Option Tag := allTags.find? fun t => tagCode t == c

/-- R27: the `op` bus carries the code of the tag, 0 when the operator is absent. -/
def opBus : Option Tag → OpCode
  | some t => tagCode t
  | none => 0#6

/-- R27: the bus of an absent field is driven to 0, to which "a consumer must not give meaning". -/
def fieldBus {w : Nat} : Option (BitVec w) → BitVec w
  | some v => v
  | none => 0#w

/-- R9 and R65: an immediate is its field, widened to the 16-bit bus with zeros. -/
def zext16 {w : Nat} (v : BitVec w) : Word := v.setWidth 16

/-! The shapes of 30_encoding.md R64, one for each format of R63. -/

/-- Formats `EXACT`: no operand. -/
def recordExact (t : Tag) : Decoded := { op := some t, vx := none, vy := none, imm := none }

/-- Format `A`: a 12-bit immediate. -/
def recordA (t : Tag) (nnn : Addr) : Decoded :=
  { op := some t, vx := none, vy := none, imm := some (zext16 nnn) }

/-- Format `XK`: `vx` and an 8-bit immediate. -/
def recordXK (t : Tag) (x : RegIdx) (kk : Byte) : Decoded :=
  { op := some t, vx := some x, vy := none, imm := some (zext16 kk) }

/-- Formats `XY-` and `XYS`: `vx` and `vy`. -/
def recordXY (t : Tag) (x y : RegIdx) : Decoded :=
  { op := some t, vx := some x, vy := some y, imm := none }

/-- Format `XYN`: `vx`, `vy` and a 4-bit immediate. -/
def recordXYN (t : Tag) (x y : RegIdx) (n : Nibble) : Decoded :=
  { op := some t, vx := some x, vy := some y, imm := some (zext16 n) }

/-- Format `XS`: `vx` alone; the sub-opcode byte is not output. -/
def recordX (t : Tag) (x : RegIdx) : Decoded :=
  { op := some t, vx := some x, vy := none, imm := none }

/-- Format `RAW`, R68: the operator is absent and the immediate is the whole word. -/
def recordRaw (w : Word) : Decoded := { op := none, vx := none, vy := none, imm := some w }

end Sys2Proof.Machine
end

