-- ==== Sys2Proof/Machine/Ops.lean ====
section
/-! DEFINITION. The shared operations: driving the output wires, reading them back, and presenting the
next inputs. There is no operation over memory or registers, and none that takes an exception or
returns from one, because the block has neither (R44, 60_exceptions.md R170, R175, R176). -/

namespace Sys2Proof.Machine

/-- 10_state.md R27: the wires encode the record field by field. -/
def portsOf (d : Decoded) : Ports :=
  { opValid  := opValidWire d.op
    op       := opBus d.op
    vxValid  := validWire d.vx
    vx       := fieldBus d.vx
    vyValid  := validWire d.vy
    vy       := fieldBus d.vy
    immValid := validWire d.imm
    imm      := fieldBus d.imm }

/-- What a consumer reads from the wires: a bus carries a field's value only when its `_valid` wire is 1
(00_scope.md R13), so the value on an absent field's bus is dropped (U4). -/
def recordOf (p : Ports) : Decoded :=
  { op  := if p.opValid then tagOfCode p.op else none
    vx  := if p.vxValid then some p.vx else none
    vy  := if p.vyValid then some p.vy else none
    imm := if p.immValid then some p.imm else none }

/-- The effect of every instruction: its record goes out on the decoder's wires and nothing else
changes (20_memory.md R44, "Decoding has no side effect"). -/
def drive (d : Decoded) (s : State) : Host.Outcome State Fault Refusal :=
  .next { s with out := portsOf d }

/-- The environment puts the next pending word on the decoder's input; with none pending the input
keeps its word. Log entry 2. -/
def presentWord (s : State) : State :=
  match s.pending with
  | [] => s
  | w :: rest => { s with word := w, pending := rest }

/-- 30_encoding.md R61: the extractor drives `nib(word, idx)`. -/
def NibbleExtractor.settle (n : NibbleExtractor) : NibbleExtractor :=
  { n with nib := Sys2Proof.nib n.word n.idx }

/-- The environment puts the next pending pair on the extractor's inputs, or leaves them as they are,
and the extractor's output follows. Log entry 3. -/
def presentNibble (s : State) : State :=
  match s.nxPending with
  | [] => { s with nx := s.nx.settle }
  | (w, i) :: rest =>
    { s with nx := NibbleExtractor.settle { s.nx with word := w, idx := i }, nxPending := rest }

/-- Everything the environment does between two sampling points. -/
def present (s : State) : State := presentNibble (presentWord s)

/-- The environment is given a byte stream to present, 20_memory.md R40 and R42. Log entry 8. -/
def State.loadStream (s : State) (bytes : List Byte) : State :=
  { s with pending := wordsOfStream bytes }

end Sys2Proof.Machine
end

