-- ==== Sys2Proof/Machine/ConditionalSkip.lean ====
section
/-! DEFINITION. SEI, SNEI, SE, SNE, SKP and SKNP: 42_conditional_skip.md. -/

namespace Sys2Proof.Machine

/-- R110. -/
def execSei (x : RegIdx) (kk : Byte) (s : State) : Host.Outcome State Fault Refusal :=
  drive (recordXK .SEI x kk) s

/-- R111. -/
def execSnei (x : RegIdx) (kk : Byte) (s : State) : Host.Outcome State Fault Refusal :=
  drive (recordXK .SNEI x kk) s

/-- R112. -/
def execSe (x y : RegIdx) (s : State) : Host.Outcome State Fault Refusal :=
  drive (recordXY .SE x y) s

/-- R113. -/
def execSne (x y : RegIdx) (s : State) : Host.Outcome State Fault Refusal :=
  drive (recordXY .SNE x y) s

/-- R114. -/
def execSkp (x : RegIdx) (s : State) : Host.Outcome State Fault Refusal :=
  drive (recordX .SKP x) s

/-- R115. -/
def execSknp (x : RegIdx) (s : State) : Host.Outcome State Fault Refusal :=
  drive (recordX .SKNP x) s

end Sys2Proof.Machine
end

