-- ==== Sys2Proof/Machine/ControlTransfer.lean ====
section
/-! DEFINITION. RET, JPI, CALL and JPO: 41_control_transfer.md. -/

namespace Sys2Proof.Machine

/-- R100. -/
def execRet (s : State) : Host.Outcome State Fault Refusal :=
  drive (recordExact .RET) s

/-- R101. -/
def execJpi (nnn : Addr) (s : State) : Host.Outcome State Fault Refusal :=
  drive (recordA .JPI nnn) s

/-- R102. -/
def execCall (nnn : Addr) (s : State) : Host.Outcome State Fault Refusal :=
  drive (recordA .CALL nnn) s

/-- R103. -/
def execJpo (nnn : Addr) (s : State) : Host.Outcome State Fault Refusal :=
  drive (recordA .JPO nnn) s

end Sys2Proof.Machine
end

