-- ==== Sys2Proof/Machine/DrawInput.lean ====
section
/-! DEFINITION. CLS, DRW and LD_VX_K: 46_draw_input.md. The decoder drives no display and never waits for a key
(60_exceptions.md R183). -/

namespace Sys2Proof.Machine

/-- R160. -/
def execCls (s : State) : Host.Outcome State Fault Refusal :=
  drive (recordExact .CLS) s

/-- R161. -/
def execDrw (x y : RegIdx) (n : Nibble) (s : State) : Host.Outcome State Fault Refusal :=
  drive (recordXYN .DRW x y n) s

/-- R162. -/
def execLdVxK (x : RegIdx) (s : State) : Host.Outcome State Fault Refusal :=
  drive (recordX .LD_VX_K x) s

end Sys2Proof.Machine
end

