-- ==== Sys2Proof/Machine/Fallback.lean ====
section
/-! DEFINITION. The fallback, 30_encoding.md R68: "data, not errors" (60_exceptions.md R170). -/

namespace Sys2Proof.Machine

/-- R68. -/
def execFallback (w : Word) (s : State) : Host.Outcome State Fault Refusal :=
  drive (recordRaw w) s

end Sys2Proof.Machine
end

