-- ==== Sys2Proof/Machine/MemoryIndex.lean ====
section
/-! DEFINITION. STI, ADD_I_VX, LD_F_VX, LD_B_VX, LD_MEM_VX and LD_VX_MEM: 44_memory_index.md. The decoder
performs no memory access; it names the operation. -/

namespace Sys2Proof.Machine

/-- R140. -/
def execSti (nnn : Addr) (s : State) : Host.Outcome State Fault Refusal :=
  drive (recordA .STI nnn) s

/-- R141. -/
def execAddIVx (x : RegIdx) (s : State) : Host.Outcome State Fault Refusal :=
  drive (recordX .ADD_I_VX x) s

/-- R142. -/
def execLdFVx (x : RegIdx) (s : State) : Host.Outcome State Fault Refusal :=
  drive (recordX .LD_F_VX x) s

/-- R143. -/
def execLdBVx (x : RegIdx) (s : State) : Host.Outcome State Fault Refusal :=
  drive (recordX .LD_B_VX x) s

/-- R144. -/
def execLdMemVx (x : RegIdx) (s : State) : Host.Outcome State Fault Refusal :=
  drive (recordX .LD_MEM_VX x) s

/-- R145. -/
def execLdVxMem (x : RegIdx) (s : State) : Host.Outcome State Fault Refusal :=
  drive (recordX .LD_VX_MEM x) s

end Sys2Proof.Machine
end

