-- ==== Sys2Proof/Machine/RegisterArithmetic.lean ====
section
/-! DEFINITION. LDI, ADD (both forms), LD, OR, AND, XOR, SUB, SHR, SUBN, SHL and RND:
43_register_arithmetic.md. The decoder computes no arithmetic; it names the operation. -/

namespace Sys2Proof.Machine

/-- R120. -/
def execLdi (x : RegIdx) (kk : Byte) (s : State) : Host.Outcome State Fault Refusal :=
  drive (recordXK .LDI x kk) s

/-- R121, the byte form; the tag is ADD, not ADDI. -/
def execAddByte (x : RegIdx) (kk : Byte) (s : State) : Host.Outcome State Fault Refusal :=
  drive (recordXK .ADD x kk) s

/-- R122. -/
def execLd (x y : RegIdx) (s : State) : Host.Outcome State Fault Refusal :=
  drive (recordXY .LD x y) s

/-- R123. -/
def execOr (x y : RegIdx) (s : State) : Host.Outcome State Fault Refusal :=
  drive (recordXY .OR x y) s

/-- R124. -/
def execAnd (x y : RegIdx) (s : State) : Host.Outcome State Fault Refusal :=
  drive (recordXY .AND x y) s

/-- R125. -/
def execXor (x y : RegIdx) (s : State) : Host.Outcome State Fault Refusal :=
  drive (recordXY .XOR x y) s

/-- R126, the register form; the same tag as R121. -/
def execAddReg (x y : RegIdx) (s : State) : Host.Outcome State Fault Refusal :=
  drive (recordXY .ADD x y) s

/-- R127. -/
def execSub (x y : RegIdx) (s : State) : Host.Outcome State Fault Refusal :=
  drive (recordXY .SUB x y) s

/-- R128; `vy` is output. -/
def execShr (x y : RegIdx) (s : State) : Host.Outcome State Fault Refusal :=
  drive (recordXY .SHR x y) s

/-- R129. -/
def execSubn (x y : RegIdx) (s : State) : Host.Outcome State Fault Refusal :=
  drive (recordXY .SUBN x y) s

/-- R130; `vy` is output. -/
def execShl (x y : RegIdx) (s : State) : Host.Outcome State Fault Refusal :=
  drive (recordXY .SHL x y) s

/-- R131; no random value is drawn, `imm` is the field as written. -/
def execRnd (x : RegIdx) (kk : Byte) (s : State) : Host.Outcome State Fault Refusal :=
  drive (recordXK .RND x kk) s

end Sys2Proof.Machine
end

