-- ==== Sys2Proof/Machine/Timers.lean ====
section
/-! DEFINITION. LD_VX_DT, LD_DT_VX and LD_ST_VX: 45_timers.md. The block holds no timer (60_exceptions.md R179). -/

namespace Sys2Proof.Machine

/-- R150. -/
def execLdVxDt (x : RegIdx) (s : State) : Host.Outcome State Fault Refusal :=
  drive (recordX .LD_VX_DT x) s

/-- R151. -/
def execLdDtVx (x : RegIdx) (s : State) : Host.Outcome State Fault Refusal :=
  drive (recordX .LD_DT_VX x) s

/-- R152. -/
def execLdStVx (x : RegIdx) (s : State) : Host.Outcome State Fault Refusal :=
  drive (recordX .LD_ST_VX x) s

end Sys2Proof.Machine
end

