-- ==== Sys2Proof/Machine/Dispatch.lean ====
section
/-! DEFINITION. One arm per constructor of Instr, each a direct call of its meaning. -/

namespace Sys2Proof.Machine

def exec (i : Instr) (s : State) : Host.Outcome State Fault Refusal :=
  match i with
  -- ControlTransfer
  | .ret => Sys2Proof.Machine.execRet s
  | .jpi nnn => Sys2Proof.Machine.execJpi nnn s
  | .call nnn => Sys2Proof.Machine.execCall nnn s
  | .jpo nnn => Sys2Proof.Machine.execJpo nnn s
  -- ConditionalSkip
  | .sei x kk => Sys2Proof.Machine.execSei x kk s
  | .snei x kk => Sys2Proof.Machine.execSnei x kk s
  | .se x y => Sys2Proof.Machine.execSe x y s
  | .sne x y => Sys2Proof.Machine.execSne x y s
  | .skp x => Sys2Proof.Machine.execSkp x s
  | .sknp x => Sys2Proof.Machine.execSknp x s
  -- RegisterArithmetic
  | .ldi x kk => Sys2Proof.Machine.execLdi x kk s
  | .addByte x kk => Sys2Proof.Machine.execAddByte x kk s
  | .ld x y => Sys2Proof.Machine.execLd x y s
  | .or x y => Sys2Proof.Machine.execOr x y s
  | .and x y => Sys2Proof.Machine.execAnd x y s
  | .xor x y => Sys2Proof.Machine.execXor x y s
  | .addReg x y => Sys2Proof.Machine.execAddReg x y s
  | .sub x y => Sys2Proof.Machine.execSub x y s
  | .shr x y => Sys2Proof.Machine.execShr x y s
  | .subn x y => Sys2Proof.Machine.execSubn x y s
  | .shl x y => Sys2Proof.Machine.execShl x y s
  | .rnd x kk => Sys2Proof.Machine.execRnd x kk s
  -- MemoryIndex
  | .sti nnn => Sys2Proof.Machine.execSti nnn s
  | .addIVx x => Sys2Proof.Machine.execAddIVx x s
  | .ldFVx x => Sys2Proof.Machine.execLdFVx x s
  | .ldBVx x => Sys2Proof.Machine.execLdBVx x s
  | .ldMemVx x => Sys2Proof.Machine.execLdMemVx x s
  | .ldVxMem x => Sys2Proof.Machine.execLdVxMem x s
  -- Timers
  | .ldVxDt x => Sys2Proof.Machine.execLdVxDt x s
  | .ldDtVx x => Sys2Proof.Machine.execLdDtVx x s
  | .ldStVx x => Sys2Proof.Machine.execLdStVx x s
  -- DrawInput
  | .cls => Sys2Proof.Machine.execCls s
  | .drw x y n => Sys2Proof.Machine.execDrw x y n s
  | .ldVxK x => Sys2Proof.Machine.execLdVxK x s
  -- Fallback
  | .fallback w => Sys2Proof.Machine.execFallback w s

end Sys2Proof.Machine
end

