-- ==== Sys2Proof/Machine/Step.lean ====
section
/-! DEFINITION. One step: from one sampling point to the next. -/

namespace Sys2Proof.Machine

/-- The environment presents the next inputs; the decoder decodes the word now on its input, never an
earlier one (20_memory.md R49), and its outputs follow. A model of the block is the zero-delay
function at sampling points (70_reset_and_hazards.md R193). -/
def step (s : State) : Host.Outcome State Fault Refusal :=
  exec (decodeWord (present s).word) (present s)

/-- The state whose next step decodes the instruction with the bits `w`, numbered as
spec/opcode_table.json numbers them: it becomes the next word the environment presents. -/
def State.withFetchWord (s : State) (nbits w : Nat) : State :=
  { s with pending := BitVec.ofNat 16 (w % 2 ^ nbits) :: s.pending }

end Sys2Proof.Machine
end

