-- ==== Sys2Proof/Config.lean ====
section
/-! DEFINITION. What an implementation of the block fixes and the spec leaves open. Every other
parameter is settled by 00_scope.md R6 and stands in the types of Word.lean. -/

namespace Sys2Proof

/-- The propagation delay `T_PD` of 70_reset_and_hazards.md R193, in an unnamed unit of time: "an open
parameter of the implementation" (D12, U6). No value of it can be proved. Log entry 4. -/
opaque Config.tPD : Nat

/-- What the output wires show at the n-th observation made before they have settled (R193, U5):
they "may take any values, including values that are no word's decode". A free value: nothing
constrains it. Log entry 4. -/
opaque Config.unsettledPorts : Nat → Ports

end Sys2Proof
end

