-- ==== Sys2Proof/Machine/Sampling.lean ====
section
/-! DEFINITION. What a consumer sees on the decoder's outputs when it samples them too early. -/

namespace Sys2Proof.Machine

/-- 70_reset_and_hazards.md R193: the outputs of the sampling point `s`, read `elapsed` units of time
after the input stopped changing. Before `T_PD` they are a free value, a fresh one for every
observation number `k` (U5); from `T_PD` on they are the settled outputs. Log entry 4. -/
def sampleAt (elapsed k : Nat) (s : State) : Ports :=
  if Config.tPD ≤ elapsed then s.out else Config.unsettledPorts k

end Sys2Proof.Machine
end

