-- ==== Sys2Proof/Machine/Reference.lean ====
section
/-! DEFINITION. The reference decode function of 30_encoding.md R76, written over raw slices and tables
as the rule writes it, apart from the dispatch in Decode.lean and the meanings it selects. -/

namespace Sys2Proof.Machine

/-- R76, the table of family 8. -/
def refFamily8 : List (BitVec 4 × Tag) :=
  [(0x0#4, .LD), (0x1#4, .OR), (0x2#4, .AND), (0x3#4, .XOR), (0x4#4, .ADD),
   (0x5#4, .SUB), (0x6#4, .SHR), (0x7#4, .SUBN), (0xF#4, .SHL)]

/-- R76, the table of family 14. -/
def refFamilyE : List (BitVec 8 × Tag) := [(0x9E#8, .SKP), (0xA1#8, .SKNP)]

/-- R76, the table of family 15. -/
def refFamilyF : List (BitVec 8 × Tag) :=
  [(0x07#8, .LD_VX_DT), (0x0A#8, .LD_VX_K), (0x15#8, .LD_DT_VX), (0x18#8, .LD_ST_VX),
   (0x1E#8, .ADD_I_VX), (0x29#8, .LD_F_VX), (0x33#8, .LD_B_VX), (0x55#8, .LD_MEM_VX),
   (0x65#8, .LD_VX_MEM)]

/-- R76, its last line: no operator, the whole word as the immediate. -/
def refFallback (w : Word) : Decoded := ⟨none, none, none, some w⟩

/-- R76: `decode`, the block's one function (00_scope.md R11). -/
def refDecode (w : Word) : Decoded :=
  let x := w.extractLsb 11 8
  let y := w.extractLsb 7 4
  let n := w.extractLsb 3 0
  let kk := w.extractLsb 7 0
  let nnn := w.extractLsb 11 0
  let r (t : Tag) (vx vy : Option RegIdx) (imm : Option Word) : Decoded := ⟨some t, vx, vy, imm⟩
  if w = 0x00E0#16 then r .CLS none none none
  else if w = 0x00EE#16 then r .RET none none none
  else match (w.extractLsb 15 12).toNat with
    | 0x1 => r .JPI none none (some (zext16 nnn))
    | 0x2 => r .CALL none none (some (zext16 nnn))
    | 0x3 => r .SEI (some x) none (some (zext16 kk))
    | 0x4 => r .SNEI (some x) none (some (zext16 kk))
    | 0x5 => r .SE (some x) (some y) none
    | 0x6 => r .LDI (some x) none (some (zext16 kk))
    | 0x7 => r .ADD (some x) none (some (zext16 kk))
    | 0x8 => match refFamily8.lookup n with
      | some t => r t (some x) (some y) none
      | none => refFallback w
    | 0x9 => r .SNE (some x) (some y) none
    | 0xA => r .STI none none (some (zext16 nnn))
    | 0xB => r .JPO none none (some (zext16 nnn))
    | 0xC => r .RND (some x) none (some (zext16 kk))
    | 0xD => r .DRW (some x) (some y) (some (zext16 n))
    | 0xE => match refFamilyE.lookup kk with
      | some t => r t (some x) none none
      | none => refFallback w
    | 0xF => match refFamilyF.lookup kk with
      | some t => r t (some x) none none
      | none => refFallback w
    | _ => refFallback w

end Sys2Proof.Machine
end

