-- ==== Sys2Proof/Machine/Spelling.lean ====
section
/-! DEFINITION. The way the spec writes an instruction, 30_encoding.md R82, as a list of characters. It
is text only: no step depends on it. It is not the document's renderer, which 00_scope.md R5
puts out of scope. Log entry 9. -/

namespace Sys2Proof.Machine

/-- The name of a tag, 10_state.md R24. -/
def tagName (t : Tag) : List Char :=
  match t with
  | .CLS => ['C', 'L', 'S']
  | .RET => ['R', 'E', 'T']
  | .JP => ['J', 'P']
  | .JPI => ['J', 'P', 'I']
  | .JPO => ['J', 'P', 'O']
  | .CALL => ['C', 'A', 'L', 'L']
  | .SE => ['S', 'E']
  | .SEI => ['S', 'E', 'I']
  | .SNE => ['S', 'N', 'E']
  | .SNEI => ['S', 'N', 'E', 'I']
  | .STI => ['S', 'T', 'I']
  | .LD => ['L', 'D']
  | .LDI => ['L', 'D', 'I']
  | .ADD => ['A', 'D', 'D']
  | .ADDI => ['A', 'D', 'D', 'I']
  | .OR => ['O', 'R']
  | .AND => ['A', 'N', 'D']
  | .XOR => ['X', 'O', 'R']
  | .SUB => ['S', 'U', 'B']
  | .SHR => ['S', 'H', 'R']
  | .SUBN => ['S', 'U', 'B', 'N']
  | .SHL => ['S', 'H', 'L']
  | .RND => ['R', 'N', 'D']
  | .DRW => ['D', 'R', 'W']
  | .SKP => ['S', 'K', 'P']
  | .SKNP => ['S', 'K', 'N', 'P']
  | .LD_VX_DT => ['L', 'D', '_', 'V', 'X', '_', 'D', 'T']
  | .LD_VX_K => ['L', 'D', '_', 'V', 'X', '_', 'K']
  | .LD_DT_VX => ['L', 'D', '_', 'D', 'T', '_', 'V', 'X']
  | .LD_ST_VX => ['L', 'D', '_', 'S', 'T', '_', 'V', 'X']
  | .ADD_I_VX => ['A', 'D', 'D', '_', 'I', '_', 'V', 'X']
  | .LD_F_VX => ['L', 'D', '_', 'F', '_', 'V', 'X']
  | .LD_B_VX => ['L', 'D', '_', 'B', '_', 'V', 'X']
  | .LD_MEM_VX => ['L', 'D', '_', 'M', 'E', 'M', '_', 'V', 'X']
  | .LD_VX_MEM => ['L', 'D', '_', 'V', 'X', '_', 'M', 'E', 'M']

/-- R82: a present register operand, ` V<n>` with `n` in decimal. -/
def spellRegister : Option RegIdx → List Char
  | some r => ' ' :: 'V' :: Nat.toDigits 10 r.toNat
  | none => []

/-- R82: a present immediate, ` 0x` and lower-case hex digits, written also when it is 0. -/
def spellImmediate : Option Word → List Char
  | some v => ' ' :: '0' :: 'x' :: Nat.toDigits 16 v.toNat
  | none => []

/-- R82: `.word 0x` and the word's four lower-case hex digits. -/
def spellRaw (w : Word) : List Char :=
  ['.', 'w', 'o', 'r', 'd', ' ', '0', 'x'] ++
    [fieldDigit 12, fieldDigit 8, fieldDigit 4, fieldDigit 0]
where
  fieldDigit (low : Nat) : Char := Nat.digitChar (w.extractLsb' low 4).toNat

/-- R82: the tag's name, then the present operands in the order `vx`, `vy`, `imm`. -/
def spell (w : Word) : List Char :=
  let d := refDecode w
  match d.op with
  | some t => tagName t ++ spellRegister d.vx ++ spellRegister d.vy ++ spellImmediate d.imm
  | none => spellRaw w

end Sys2Proof.Machine
end

