-- ==== Sys2Proof/Machine/Table.lean ====
section
/-! DEFINITION. spec/opcode_table.json as data: the 34 instruction rows with their match, mask, format
and tag. The decoder does not use it; claims hold the decoder against it. -/

namespace Sys2Proof.Machine

/-- The eight formats of 30_encoding.md R63. -/
inductive Format
  | exact | a | xk | xyDash | xys | xyn | xs | raw
  deriving DecidableEq, Repr

/-- A row of the table: a word belongs to it when its bits under `mask` are `value`. -/
structure OpRow where
  tag    : Tag
  format : Format
  value  : Word
  mask   : Word
  deriving DecidableEq, Repr

/-- The rows of the control-transfer and conditional-skip families, in the table's order. -/
def opcodeRowsControl : List OpRow :=
  [⟨.RET, .exact, 0x00EE#16, 0xFFFF#16⟩, ⟨.JPI, .a, 0x1000#16, 0xF000#16⟩,
   ⟨.CALL, .a, 0x2000#16, 0xF000#16⟩, ⟨.JPO, .a, 0xB000#16, 0xF000#16⟩,
   ⟨.SEI, .xk, 0x3000#16, 0xF000#16⟩, ⟨.SNEI, .xk, 0x4000#16, 0xF000#16⟩,
   ⟨.SE, .xyDash, 0x5000#16, 0xF000#16⟩, ⟨.SNE, .xyDash, 0x9000#16, 0xF000#16⟩,
   ⟨.SKP, .xs, 0xE09E#16, 0xF0FF#16⟩, ⟨.SKNP, .xs, 0xE0A1#16, 0xF0FF#16⟩]

/-- The rows of the register-arithmetic family. -/
def opcodeRowsArithmetic : List OpRow :=
  [⟨.LDI, .xk, 0x6000#16, 0xF000#16⟩, ⟨.ADD, .xk, 0x7000#16, 0xF000#16⟩,
   ⟨.LD, .xys, 0x8000#16, 0xF00F#16⟩, ⟨.OR, .xys, 0x8001#16, 0xF00F#16⟩,
   ⟨.AND, .xys, 0x8002#16, 0xF00F#16⟩, ⟨.XOR, .xys, 0x8003#16, 0xF00F#16⟩,
   ⟨.ADD, .xys, 0x8004#16, 0xF00F#16⟩, ⟨.SUB, .xys, 0x8005#16, 0xF00F#16⟩,
   ⟨.SHR, .xys, 0x8006#16, 0xF00F#16⟩, ⟨.SUBN, .xys, 0x8007#16, 0xF00F#16⟩,
   ⟨.SHL, .xys, 0x800F#16, 0xF00F#16⟩, ⟨.RND, .xk, 0xC000#16, 0xF000#16⟩]

/-- The rows of the memory and index, timer, and draw and input families. -/
def opcodeRowsDevices : List OpRow :=
  [⟨.STI, .a, 0xA000#16, 0xF000#16⟩, ⟨.ADD_I_VX, .xs, 0xF01E#16, 0xF0FF#16⟩,
   ⟨.LD_F_VX, .xs, 0xF029#16, 0xF0FF#16⟩, ⟨.LD_B_VX, .xs, 0xF033#16, 0xF0FF#16⟩,
   ⟨.LD_MEM_VX, .xs, 0xF055#16, 0xF0FF#16⟩, ⟨.LD_VX_MEM, .xs, 0xF065#16, 0xF0FF#16⟩,
   ⟨.LD_VX_DT, .xs, 0xF007#16, 0xF0FF#16⟩, ⟨.LD_DT_VX, .xs, 0xF015#16, 0xF0FF#16⟩,
   ⟨.LD_ST_VX, .xs, 0xF018#16, 0xF0FF#16⟩, ⟨.CLS, .exact, 0x00E0#16, 0xFFFF#16⟩,
   ⟨.DRW, .xyn, 0xD000#16, 0xF000#16⟩, ⟨.LD_VX_K, .xs, 0xF00A#16, 0xF0FF#16⟩]

/-- Every row but "(fallback)", which is what remains when no row matches. -/
def opcodeTable : List OpRow := opcodeRowsControl ++ opcodeRowsArithmetic ++ opcodeRowsDevices

/-- A word belongs to a row. -/
def OpRow.matches (r : OpRow) (w : Word) : Bool := w &&& r.mask == r.value

/-- The fields a format reads from a word, R63 and R64, by masks and shifts. -/
def formatRecord (f : Format) (t : Tag) (w : Word) : Decoded :=
  let x : RegIdx := (w >>> 8).setWidth 4
  let y : RegIdx := (w >>> 4).setWidth 4
  match f with
  | .exact => ⟨some t, none, none, none⟩
  | .a => ⟨some t, none, none, some (w &&& 0x0FFF#16)⟩
  | .xk => ⟨some t, some x, none, some (w &&& 0x00FF#16)⟩
  | .xyDash => ⟨some t, some x, some y, none⟩
  | .xys => ⟨some t, some x, some y, none⟩
  | .xyn => ⟨some t, some x, some y, some (w &&& 0x000F#16)⟩
  | .xs => ⟨some t, some x, none, none⟩
  | .raw => ⟨none, none, none, some w⟩

/-- The decoded record by table look-up: the first row the word belongs to, or the fallback. -/
def tableDecode (w : Word) : Decoded :=
  match opcodeTable.find? fun r => r.matches w with
  | some r => formatRecord r.format r.tag w
  | none => recordRaw w

end Sys2Proof.Machine
end

