-- ==== Sys2Proof/Safety.lean ====
section
/-! DEFINITION. What counts as a right sampling point and a safe step, in the terms claims use. -/

namespace Sys2Proof.Machine

/-- 10_state.md R20 and R35: the outputs are a function of the inputs at that moment alone, the encoding
(R27) of `decode(word)` and, for the extractor, `nib(word, idx)` (30_encoding.md R61). -/
abbrev Settled (s : State) : Prop :=
  s.out = portsOf (refDecode s.word) ∧ s.nx.nib = nib s.nx.word s.nx.idx

/-- 10_state.md R28: the wire values that can occur. An absent field's bus is 0, an `op` code of 36 to 63
is never driven, and `op_valid` is 1 exactly when the code is not 0. -/
def legalPorts (p : Ports) : Bool :=
  p.opValid == (p.op != 0#6) && decide (p.op.toNat < 36) &&
    (p.vxValid || p.vx == 0#4) && (p.vyValid || p.vy == 0#4) && (p.immValid || p.imm == 0#16)

/-- 30_encoding.md R67: the block does not raise, signal an error, hold or fail to produce an output: the
step goes on, with the word the environment presents (or, with none pending, the one already there)
on the input. -/
def SafeStep (s : State) : Prop := ∃ t, step s = .next t ∧ t.word = s.pending.headD s.word

end Sys2Proof.Machine
end

