-- ==== Sys2Proof/WellFormed.lean ====
section
/-! DEFINITION. Which terms of Instr stand for some word. The field types leave one check: a fallback
carries a word that no recognised pattern matches (30_encoding.md R68 and R72). -/

namespace Sys2Proof

/-- R72, first row: family 0 except the two exact words. -/
def unmatchedFamily0 (w : Word) : Bool :=
  w &&& 0xF000#16 == 0x0000#16 && w != 0x00E0#16 && w != 0x00EE#16

/-- R72, second row: family 8 with a sub-opcode in 0x8..0xE. -/
def unmatchedFamily8 (w : Word) : Bool :=
  w &&& 0xF000#16 == 0x8000#16 && decide (0x8#16 ≤ w &&& 0x000F#16 ∧ w &&& 0x000F#16 ≤ 0xE#16)

/-- R72, third row: family 14 with a low byte other than 0x9E and 0xA1. -/
def unmatchedFamilyE (w : Word) : Bool :=
  w &&& 0xF000#16 == 0xE000#16 && !([0x9E#16, 0xA1#16].contains (w &&& 0x00FF#16))

/-- R72, fourth row: family 15 with a low byte that is not one of the nine. -/
def unmatchedFamilyF (w : Word) : Bool :=
  w &&& 0xF000#16 == 0xF000#16 &&
    !([0x07#16, 0x0A#16, 0x15#16, 0x18#16, 0x1E#16, 0x29#16, 0x33#16, 0x55#16, 0x65#16].contains
      (w &&& 0x00FF#16))

/-- R72: the words that match no pattern "are exactly these four sets". -/
def unmatched (w : Word) : Bool :=
  unmatchedFamily0 w || unmatchedFamily8 w || unmatchedFamilyE w || unmatchedFamilyF w

/-- An instruction is well formed when some word decodes to it. -/
def Instr.wellFormed (i : Instr) : Bool :=
  match i with
  | .fallback w => unmatched w
  | .ret => true
  | .jpi _ => true
  | .call _ => true
  | .jpo _ => true
  | .sei _ _ => true
  | .snei _ _ => true
  | .se _ _ => true
  | .sne _ _ => true
  | .skp _ => true
  | .sknp _ => true
  | .ldi _ _ => true
  | .addByte _ _ => true
  | .ld _ _ => true
  | .or _ _ => true
  | .and _ _ => true
  | .xor _ _ => true
  | .addReg _ _ => true
  | .sub _ _ => true
  | .shr _ _ => true
  | .subn _ _ => true
  | .shl _ _ => true
  | .rnd _ _ => true
  | .sti _ => true
  | .addIVx _ => true
  | .ldFVx _ => true
  | .ldBVx _ => true
  | .ldMemVx _ => true
  | .ldVxMem _ => true
  | .ldVxDt _ => true
  | .ldDtVx _ => true
  | .ldStVx _ => true
  | .cls => true
  | .drw _ _ _ => true
  | .ldVxK _ => true

end Sys2Proof
end

