-- ==== Sys2Proof/Certificates/Slice0/Obligations.lean ====
section
/-! DEFINITION. The statements for the provers. Output wires are written in the order of the port table
of 10_state.md R26: op_valid, op, vx_valid, vx, vy_valid, vy, imm_valid, imm. Slices are written
`w.extractLsb hi lo` for the spec's `w[hi:lo]`. -/

namespace Sys2Proof.Claims

open Sys2Proof.Machine

/-- From every state in which the environment presents a word `w` with `p w` next, the step answers the
state in which `w` is on the input and the decoder drives `wires w`. Nothing else changes but the
environment's own inputs: the word has left the queue, and the extractor has its next inputs. -/
def WordsDrive (p : Word → Prop) (wires : Word → Ports) : Prop :=
  ∀ (s : State) (w : Word) (rest : List Word), s.pending = w :: rest → p w →
    step s = .next { word := w, out := wires w, nx := (presentNibble s).nx,
                     pending := rest, nxPending := s.nxPending.tail }

/-- R68: the wires of a word that no pattern matches. -/
def rawWires (w : Word) : Ports := ⟨false, 0#6, false, 0#4, false, 0#4, true, w⟩

/-- A word is recognised when the decoder, given it first after power-up, drives `op_valid` to 1. -/
def recognised (w : Word) : Bool :=
  match step { State.reset with pending := [w] } with
  | .next t => t.out.opValid
  | .fault _ => false
  | .refused _ => false

/-- How many of the 4,096 words of family `f` (the value of nibble 0) have a property. -/
def countFamily (f : Nat) (p : Word → Bool) : Nat :=
  (List.range 4096).countP fun n => p (BitVec.ofNat 16 (4096 * f + n))

/-- How many of the 65,536 words have a property. -/
def countWords (p : Word → Bool) : Nat := ((List.range 16).map fun f => countFamily f p).sum

end Sys2Proof.Claims

open Sys2Proof Sys2Proof.Machine Sys2Proof.Claims

/-! ### Power-up, and how a step reaches a meaning -/

/-- Directly after power is applied the outputs are right for the inputs, and nothing is pending (R190;
the input values are the model's own, log entries 1, 2 and 3). -/
def Obligations.ResetStateIsSettled : Prop :=
  Settled State.reset ∧ State.reset.pending = [] ∧ State.reset.nxPending = []

/-- A step runs the decoded instruction: the two bytes of the next word, or of the word still on the
input when none is pending, decode to `i`, and the step is `exec i` at the state whose inputs have
been presented. The queue is the model's own (log entry 2). -/
def Obligations.StepRunsTheDecodedInstruction : Prop :=
  (∀ (s : State) (w : Word) (rest : List Word) (i : Instr), s.pending = w :: rest →
    decodeBytes [w.extractLsb 15 8, w.extractLsb 7 0] = .ok (i, []) →
    step s = exec i (presentNibble { s with word := w, pending := rest })) ∧
  (∀ (s : State) (i : Instr), s.pending = [] →
    decodeBytes [s.word.extractLsb 15 8, s.word.extractLsb 7 0] = .ok (i, []) →
    step s = exec i (presentNibble s))

/-- The host's two views agree: the state made to fetch a table word runs, in its next step, the
instruction the decoder reads from that word (log entry 8). -/
def Obligations.FetchWordRunsNext : Prop :=
  ∀ (s : State) (nbits w : Nat) (i : Instr), decodeTableWord nbits w = some i →
    step (s.withFetchWord nbits w) =
      exec i (presentNibble { s with word := BitVec.ofNat 16 (w % 2 ^ nbits) })

/-- The worked examples E1 to E9 of 95_test_vectors.md, and one word of every other family. -/
def Obligations.WorkedExampleWordsDecode : Prop :=
  decodeWord 0x00E0#16 = .cls ∧ decodeWord 0x00EE#16 = .ret ∧
  decodeWord 0x1234#16 = .jpi 0x234#12 ∧ decodeWord 0x2ABC#16 = .call 0xABC#12 ∧
  decodeWord 0x8120#16 = .ld 1#4 2#4 ∧ decodeWord 0x812F#16 = .shl 1#4 2#4 ∧
  decodeWord 0x8128#16 = .fallback 0x8128#16 ∧ decodeWord 0xE19E#16 = .skp 1#4 ∧
  decodeWord 0xF10A#16 = .ldVxK 1#4 ∧ decodeWord 0xD125#16 = .drw 1#4 2#4 5#4 ∧
  decodeWord 0xA2F0#16 = .sti 0x2F0#12 ∧ decodeWord 0xFE18#16 = .ldStVx 14#4

/-! ### What each instruction drives: result, completion and frame in one equality -/

/-- RET, JPI, CALL and JPO run from every state; only the decoder's wires change. -/
def Obligations.ControlTransferCompletes : Prop :=
  ∀ (s : State) (nnn : Addr),
    exec .ret s = .next { s with out := ⟨true, 2#6, false, 0#4, false, 0#4, false, 0#16⟩ } ∧
    exec (.jpi nnn) s =
      .next { s with out := ⟨true, 4#6, false, 0#4, false, 0#4, true, nnn.setWidth 16⟩ } ∧
    exec (.call nnn) s =
      .next { s with out := ⟨true, 6#6, false, 0#4, false, 0#4, true, nnn.setWidth 16⟩ } ∧
    exec (.jpo nnn) s =
      .next { s with out := ⟨true, 5#6, false, 0#4, false, 0#4, true, nnn.setWidth 16⟩ }

/-- SEI, SNEI, SE, SNE, SKP and SKNP run from every state; only the decoder's wires change. -/
def Obligations.ConditionalSkipCompletes : Prop :=
  ∀ (s : State) (x y : RegIdx) (kk : Byte),
    exec (.sei x kk) s =
      .next { s with out := ⟨true, 8#6, true, x, false, 0#4, true, kk.setWidth 16⟩ } ∧
    exec (.snei x kk) s =
      .next { s with out := ⟨true, 10#6, true, x, false, 0#4, true, kk.setWidth 16⟩ } ∧
    exec (.se x y) s = .next { s with out := ⟨true, 7#6, true, x, true, y, false, 0#16⟩ } ∧
    exec (.sne x y) s = .next { s with out := ⟨true, 9#6, true, x, true, y, false, 0#16⟩ } ∧
    exec (.skp x) s = .next { s with out := ⟨true, 25#6, true, x, false, 0#4, false, 0#16⟩ } ∧
    exec (.sknp x) s = .next { s with out := ⟨true, 26#6, true, x, false, 0#4, false, 0#16⟩ }

/-- LDI, ADD (byte form) and RND run from every state; only the decoder's wires change. -/
def Obligations.ByteConstantArithmeticCompletes : Prop :=
  ∀ (s : State) (x : RegIdx) (kk : Byte),
    exec (.ldi x kk) s =
      .next { s with out := ⟨true, 13#6, true, x, false, 0#4, true, kk.setWidth 16⟩ } ∧
    exec (.addByte x kk) s =
      .next { s with out := ⟨true, 14#6, true, x, false, 0#4, true, kk.setWidth 16⟩ } ∧
    exec (.rnd x kk) s =
      .next { s with out := ⟨true, 23#6, true, x, false, 0#4, true, kk.setWidth 16⟩ }

/-- The nine operations of family 8 run from every state; only the decoder's wires change. -/
def Obligations.RegisterPairArithmeticCompletes : Prop :=
  ∀ (s : State) (x y : RegIdx),
    exec (.ld x y) s = .next { s with out := ⟨true, 12#6, true, x, true, y, false, 0#16⟩ } ∧
    exec (.or x y) s = .next { s with out := ⟨true, 16#6, true, x, true, y, false, 0#16⟩ } ∧
    exec (.and x y) s = .next { s with out := ⟨true, 17#6, true, x, true, y, false, 0#16⟩ } ∧
    exec (.xor x y) s = .next { s with out := ⟨true, 18#6, true, x, true, y, false, 0#16⟩ } ∧
    exec (.addReg x y) s = .next { s with out := ⟨true, 14#6, true, x, true, y, false, 0#16⟩ } ∧
    exec (.sub x y) s = .next { s with out := ⟨true, 19#6, true, x, true, y, false, 0#16⟩ } ∧
    exec (.shr x y) s = .next { s with out := ⟨true, 20#6, true, x, true, y, false, 0#16⟩ } ∧
    exec (.subn x y) s = .next { s with out := ⟨true, 21#6, true, x, true, y, false, 0#16⟩ } ∧
    exec (.shl x y) s = .next { s with out := ⟨true, 22#6, true, x, true, y, false, 0#16⟩ }

/-- STI and the five memory and index operations of family 15 run from every state; only the decoder's
wires change. -/
def Obligations.MemoryIndexCompletes : Prop :=
  ∀ (s : State) (x : RegIdx) (nnn : Addr),
    exec (.sti nnn) s =
      .next { s with out := ⟨true, 11#6, false, 0#4, false, 0#4, true, nnn.setWidth 16⟩ } ∧
    exec (.addIVx x) s = .next { s with out := ⟨true, 31#6, true, x, false, 0#4, false, 0#16⟩ } ∧
    exec (.ldFVx x) s = .next { s with out := ⟨true, 32#6, true, x, false, 0#4, false, 0#16⟩ } ∧
    exec (.ldBVx x) s = .next { s with out := ⟨true, 33#6, true, x, false, 0#4, false, 0#16⟩ } ∧
    exec (.ldMemVx x) s = .next { s with out := ⟨true, 34#6, true, x, false, 0#4, false, 0#16⟩ } ∧
    exec (.ldVxMem x) s = .next { s with out := ⟨true, 35#6, true, x, false, 0#4, false, 0#16⟩ }

/-- LD_VX_DT, LD_DT_VX and LD_ST_VX run from every state; only the decoder's wires change. -/
def Obligations.TimersComplete : Prop :=
  ∀ (s : State) (x : RegIdx),
    exec (.ldVxDt x) s = .next { s with out := ⟨true, 27#6, true, x, false, 0#4, false, 0#16⟩ } ∧
    exec (.ldDtVx x) s = .next { s with out := ⟨true, 29#6, true, x, false, 0#4, false, 0#16⟩ } ∧
    exec (.ldStVx x) s = .next { s with out := ⟨true, 30#6, true, x, false, 0#4, false, 0#16⟩ }

/-- CLS, DRW and LD_VX_K, which does not wait (R183), and the fallback run from every state; only the
decoder's wires change. The fallback drives the word it carries, whatever word that is (log entry 7). -/
def Obligations.DrawInputAndFallbackComplete : Prop :=
  ∀ (s : State) (x y : RegIdx) (n : Nibble) (w : Word),
    exec .cls s = .next { s with out := ⟨true, 1#6, false, 0#4, false, 0#4, false, 0#16⟩ } ∧
    exec (.drw x y n) s =
      .next { s with out := ⟨true, 24#6, true, x, true, y, true, n.setWidth 16⟩ } ∧
    exec (.ldVxK x) s = .next { s with out := ⟨true, 28#6, true, x, false, 0#4, false, 0#16⟩ } ∧
    exec (.fallback w) s = .next { s with out := ⟨false, 0#6, false, 0#4, false, 0#4, true, w⟩ }

/-- Every instruction, the fallback too, leaves both blocks' inputs, the extractor's output and the
words still pending as they are, and what it drives does not depend on the state. -/
def Obligations.EveryInstructionTouchesOnlyTheOutputs : Prop :=
  ∀ (i : Instr) (s t s' t' : State), exec i s = .next t → exec i s' = .next t' →
    t.word = s.word ∧ t.nx = s.nx ∧ t.pending = s.pending ∧ t.nxPending = s.nxPending ∧
    t.out = t'.out

/-! ### What each word drives: encoding, dispatch, result and frame together -/

/-- R100 to R103, each with its encoding, every output wire and its corner cases. -/
def Obligations.ControlTransferWords : Prop :=
  WordsDrive (fun w => w = 0x00EE#16)
    (fun _ => ⟨true, 2#6, false, 0#4, false, 0#4, false, 0#16⟩) ∧
  WordsDrive (fun w => w &&& 0xF000#16 = 0x0000#16 ∧ w ≠ 0x00EE#16 ∧ w ≠ 0x00E0#16) rawWires ∧
  WordsDrive (fun w => w &&& 0xF000#16 = 0x1000#16)
    (fun w => ⟨true, 4#6, false, 0#4, false, 0#4, true, (w.extractLsb 11 0).setWidth 16⟩) ∧
  WordsDrive (fun w => w &&& 0xF000#16 = 0x2000#16)
    (fun w => ⟨true, 6#6, false, 0#4, false, 0#4, true, (w.extractLsb 11 0).setWidth 16⟩) ∧
  WordsDrive (fun w => w &&& 0xF000#16 = 0xB000#16)
    (fun w => ⟨true, 5#6, false, 0#4, false, 0#4, true, (w.extractLsb 11 0).setWidth 16⟩)

/-- R110 to R115, each with its encoding, every output wire and its corner cases. -/
def Obligations.ConditionalSkipWords : Prop :=
  WordsDrive (fun w => w &&& 0xF000#16 = 0x3000#16)
    (fun w => ⟨true, 8#6, true, w.extractLsb 11 8, false, 0#4, true,
      (w.extractLsb 7 0).setWidth 16⟩) ∧
  WordsDrive (fun w => w &&& 0xF000#16 = 0x4000#16)
    (fun w => ⟨true, 10#6, true, w.extractLsb 11 8, false, 0#4, true,
      (w.extractLsb 7 0).setWidth 16⟩) ∧
  WordsDrive (fun w => w &&& 0xF000#16 = 0x5000#16)
    (fun w => ⟨true, 7#6, true, w.extractLsb 11 8, true, w.extractLsb 7 4, false, 0#16⟩) ∧
  WordsDrive (fun w => w &&& 0xF000#16 = 0x9000#16)
    (fun w => ⟨true, 9#6, true, w.extractLsb 11 8, true, w.extractLsb 7 4, false, 0#16⟩) ∧
  WordsDrive (fun w => w &&& 0xF0FF#16 = 0xE09E#16)
    (fun w => ⟨true, 25#6, true, w.extractLsb 11 8, false, 0#4, false, 0#16⟩) ∧
  WordsDrive (fun w => w &&& 0xF0FF#16 = 0xE0A1#16)
    (fun w => ⟨true, 26#6, true, w.extractLsb 11 8, false, 0#4, false, 0#16⟩) ∧
  WordsDrive (fun w => w &&& 0xF000#16 = 0xE000#16 ∧ w &&& 0x00FF#16 ≠ 0x009E#16 ∧
    w &&& 0x00FF#16 ≠ 0x00A1#16) rawWires

/-- R120 to R131, each with its encoding, every output wire and its corner cases. -/
def Obligations.RegisterArithmeticWords : Prop :=
  WordsDrive (fun w => w &&& 0xF000#16 = 0x6000#16)
    (fun w => ⟨true, 13#6, true, w.extractLsb 11 8, false, 0#4, true,
      (w.extractLsb 7 0).setWidth 16⟩) ∧
  WordsDrive (fun w => w &&& 0xF000#16 = 0x7000#16)
    (fun w => ⟨true, 14#6, true, w.extractLsb 11 8, false, 0#4, true,
      (w.extractLsb 7 0).setWidth 16⟩) ∧
  WordsDrive (fun w => w &&& 0xF00F#16 = 0x8000#16)
    (fun w => ⟨true, 12#6, true, w.extractLsb 11 8, true, w.extractLsb 7 4, false, 0#16⟩) ∧
  WordsDrive (fun w => w &&& 0xF00F#16 = 0x8001#16)
    (fun w => ⟨true, 16#6, true, w.extractLsb 11 8, true, w.extractLsb 7 4, false, 0#16⟩) ∧
  WordsDrive (fun w => w &&& 0xF00F#16 = 0x8002#16)
    (fun w => ⟨true, 17#6, true, w.extractLsb 11 8, true, w.extractLsb 7 4, false, 0#16⟩) ∧
  WordsDrive (fun w => w &&& 0xF00F#16 = 0x8003#16)
    (fun w => ⟨true, 18#6, true, w.extractLsb 11 8, true, w.extractLsb 7 4, false, 0#16⟩) ∧
  WordsDrive (fun w => w &&& 0xF00F#16 = 0x8004#16)
    (fun w => ⟨true, 14#6, true, w.extractLsb 11 8, true, w.extractLsb 7 4, false, 0#16⟩) ∧
  WordsDrive (fun w => w &&& 0xF00F#16 = 0x8005#16)
    (fun w => ⟨true, 19#6, true, w.extractLsb 11 8, true, w.extractLsb 7 4, false, 0#16⟩) ∧
  WordsDrive (fun w => w &&& 0xF00F#16 = 0x8006#16)
    (fun w => ⟨true, 20#6, true, w.extractLsb 11 8, true, w.extractLsb 7 4, false, 0#16⟩) ∧
  WordsDrive (fun w => w &&& 0xF00F#16 = 0x8007#16)
    (fun w => ⟨true, 21#6, true, w.extractLsb 11 8, true, w.extractLsb 7 4, false, 0#16⟩) ∧
  WordsDrive (fun w => w &&& 0xF00F#16 = 0x800F#16)
    (fun w => ⟨true, 22#6, true, w.extractLsb 11 8, true, w.extractLsb 7 4, false, 0#16⟩) ∧
  WordsDrive (fun w => w &&& 0xF000#16 = 0xC000#16)
    (fun w => ⟨true, 23#6, true, w.extractLsb 11 8, false, 0#4, true,
      (w.extractLsb 7 0).setWidth 16⟩) ∧
  WordsDrive (fun w => w = 0x812E#16) rawWires

/-- R140 to R145, each with its encoding, every output wire and its corner cases. -/
def Obligations.MemoryIndexWords : Prop :=
  WordsDrive (fun w => w &&& 0xF000#16 = 0xA000#16)
    (fun w => ⟨true, 11#6, false, 0#4, false, 0#4, true, (w.extractLsb 11 0).setWidth 16⟩) ∧
  WordsDrive (fun w => w &&& 0xF0FF#16 = 0xF01E#16)
    (fun w => ⟨true, 31#6, true, w.extractLsb 11 8, false, 0#4, false, 0#16⟩) ∧
  WordsDrive (fun w => w &&& 0xF0FF#16 = 0xF029#16)
    (fun w => ⟨true, 32#6, true, w.extractLsb 11 8, false, 0#4, false, 0#16⟩) ∧
  WordsDrive (fun w => w &&& 0xF0FF#16 = 0xF033#16)
    (fun w => ⟨true, 33#6, true, w.extractLsb 11 8, false, 0#4, false, 0#16⟩) ∧
  WordsDrive (fun w => w &&& 0xF0FF#16 = 0xF055#16)
    (fun w => ⟨true, 34#6, true, w.extractLsb 11 8, false, 0#4, false, 0#16⟩) ∧
  WordsDrive (fun w => w &&& 0xF0FF#16 = 0xF065#16)
    (fun w => ⟨true, 35#6, true, w.extractLsb 11 8, false, 0#4, false, 0#16⟩) ∧
  WordsDrive (fun w => w = 0xF066#16) rawWires

/-- R150 to R152, each with its encoding, every output wire and its corner cases. -/
def Obligations.TimerWords : Prop :=
  WordsDrive (fun w => w &&& 0xF0FF#16 = 0xF007#16)
    (fun w => ⟨true, 27#6, true, w.extractLsb 11 8, false, 0#4, false, 0#16⟩) ∧
  WordsDrive (fun w => w = 0xF008#16) rawWires ∧
  WordsDrive (fun w => w &&& 0xF0FF#16 = 0xF015#16)
    (fun w => ⟨true, 29#6, true, w.extractLsb 11 8, false, 0#4, false, 0#16⟩) ∧
  WordsDrive (fun w => w &&& 0xF0FF#16 = 0xF018#16)
    (fun w => ⟨true, 30#6, true, w.extractLsb 11 8, false, 0#4, false, 0#16⟩)

/-- R160 to R162, each with its encoding, every output wire and its corner cases; the last clause is R161's:
no other tag than DRW has vx, vy and imm all present. -/
def Obligations.DrawInputWords : Prop :=
  WordsDrive (fun w => w = 0x00E0#16)
    (fun _ => ⟨true, 1#6, false, 0#4, false, 0#4, false, 0#16⟩) ∧
  WordsDrive (fun w => (0x00E1#16 ≤ w ∧ w ≤ 0x00ED#16) ∨ w = 0x00EF#16 ∨ w = 0x00F0#16 ∨
    w = 0x01E0#16) rawWires ∧
  WordsDrive (fun w => w = 0x00EE#16)
    (fun _ => ⟨true, 2#6, false, 0#4, false, 0#4, false, 0#16⟩) ∧
  WordsDrive (fun w => w &&& 0xF000#16 = 0xD000#16)
    (fun w => ⟨true, 24#6, true, w.extractLsb 11 8, true, w.extractLsb 7 4, true,
      (w.extractLsb 3 0).setWidth 16⟩) ∧
  WordsDrive (fun w => w &&& 0xF0FF#16 = 0xF00A#16)
    (fun w => ⟨true, 28#6, true, w.extractLsb 11 8, false, 0#4, false, 0#16⟩) ∧
  (∀ (s t : State), step s = .next t →
    t.out.vxValid = true → t.out.vyValid = true → t.out.immValid = true →
    t.out.opValid = true ∧ t.out.op = 24#6)

/-- R68: a word is sent to the fallback exactly when it matches no row of the opcode table, and then
the operator is absent and the immediate is the full word, 0x0000 included. -/
def Obligations.FallbackWords : Prop :=
  WordsDrive (fun w => ∀ r ∈ opcodeTable, r.matches w = false) rawWires ∧
  (∀ (s t : State), step s = .next t →
    (t.out.opValid = false ↔ ∀ r ∈ opcodeTable, r.matches t.word = false)) ∧
  WordsDrive (fun w => w = 0x0000#16) rawWires

/-- R73: sub-opcode 0xE of family 8 takes the fallback, and SHL is sub-opcode 0xF. -/
def Obligations.ShlIsSubOpcodeF : Prop :=
  WordsDrive (fun w => w &&& 0xF00F#16 = 0x800E#16) rawWires ∧
  (∀ (s t : State), step s = .next t → (t.out.op = 22#6 ↔ t.word &&& 0xF00F#16 = 0x800F#16))

/-- R74: in families 5 and 9 the outputs do not depend on nibble 3, every word is recognised, and no
immediate is output. -/
def Obligations.FamiliesFiveAndNineIgnoreNibbleThree : Prop :=
  ∀ (s t s' t' : State), step s = .next t → step s' = .next t' →
    (t.word.extractLsb 15 12 = 5#4 ∨ t.word.extractLsb 15 12 = 9#4) →
    t.word.extractLsb 15 4 = t'.word.extractLsb 15 4 →
    t.out = t'.out ∧ t.out.immValid = false ∧
    t.out.op = (if t.word.extractLsb 15 12 = 5#4 then 7#6 else 9#6)

/-! ### The whole input space -/

/-- R67: whatever the state and the word, a step produces an output; it never stops. -/
def Obligations.EveryWordIsDecoded : Prop :=
  ∀ s : State, SafeStep s

/-- R20, R76 and R190: after a step from any state the outputs are the encoding of the reference decode
of the word now on the input, and the extractor's output is the nibble of its own inputs. -/
def Obligations.EveryStepSettlesTheOutputs : Prop :=
  ∀ s t : State, step s = .next t → Settled t

/-- The wires read back as the record that table look-up gives: every row of the opcode table, by its
match, mask and format, and the fallback. -/
def Obligations.OutputsAgreeWithTheOpcodeTable : Prop :=
  ∀ s t : State, step s = .next t → recordOf t.out = tableDecode t.word

/-- R69: no word matches two patterns, so the order of the rows decides nothing between them. -/
def Obligations.PatternsAreDisjoint : Prop :=
  (∀ (w : Word) (r r' : OpRow), r ∈ opcodeTable → r' ∈ opcodeTable →
    r.matches w = true → r'.matches w = true → r = r') ∧
  (∀ (w : Word) (r : OpRow), r ∈ opcodeTable → r.matches w = true → w.extractLsb 15 12 = 0#4 →
    w = 0x00E0#16 ∨ w = 0x00EE#16)

/-- R70: how many words of each family are recognised and how many take the fallback. -/
def Obligations.RecognisedWordCounts : Prop :=
  countWords recognised = 51634 ∧ countWords (fun w => !recognised w) = 13902 ∧
  (∀ f < 16,
    countFamily f recognised =
      (if f = 0x0 then 2 else if f = 0x8 then 2304 else if f = 0xE then 32
       else if f = 0xF then 144 else 4096) ∧
    countFamily f (fun w => !recognised w) =
      (if f = 0x0 then 4094 else if f = 0x8 then 1792 else if f = 0xE then 4064
       else if f = 0xF then 3952 else 0))

/-- R72: the words no pattern matches are exactly the four sets, of these sizes, and each is data for the
consumer: the step goes on with the fallback. -/
def Obligations.UnmatchedWordsAreTheFourSets : Prop :=
  (∀ w : Word, (∀ r ∈ opcodeTable, r.matches w = false) ↔ unmatched w = true) ∧
  WordsDrive (fun w => unmatched w = true) rawWires ∧
  countWords unmatchedFamily0 = 4094 ∧ countWords unmatchedFamily8 = 1792 ∧
  countWords unmatchedFamilyE = 4064 ∧ countWords unmatchedFamilyF = 3952

/-- R71: no word drives the codes of JP and ADDI, and ADD is driven by family 7 and by family 8 with
sub-opcode 4 and by nothing else; the two tags stay in the set with codes of their own. -/
def Obligations.JpAndAddiAreNeverDriven : Prop :=
  (∀ (s t : State), step s = .next t →
    t.out.op ≠ 3#6 ∧ t.out.op ≠ 15#6 ∧
    (t.out.op = 14#6 ↔
      t.word &&& 0xF000#16 = 0x7000#16 ∨ t.word &&& 0xF00F#16 = 0x8004#16)) ∧
  tagCode .JP = 3#6 ∧ tagCode .ADDI = 15#6

/-- R64 and R65: the operand shape of every tag, with every field's value. Present fields are the word's
own bits, the immediate zero-extended and present also when it is 0. -/
def Obligations.OperandShapeOfEveryTag : Prop :=
  ∀ (s t : State), step s = .next t →
    (t.out.op ∈ [1#6, 2#6] →
      t.out.vxValid = false ∧ t.out.vyValid = false ∧ t.out.immValid = false) ∧
    (t.out.op ∈ [4#6, 6#6, 11#6, 5#6] →
      t.out.vxValid = false ∧ t.out.vyValid = false ∧ t.out.immValid = true ∧
      t.out.imm = (t.word.extractLsb 11 0).setWidth 16) ∧
    (t.out.op ∈ [8#6, 10#6, 13#6, 23#6] ∨ (t.out.op = 14#6 ∧ t.word.extractLsb 15 12 = 7#4) →
      t.out.vxValid = true ∧ t.out.vx = t.word.extractLsb 11 8 ∧ t.out.vyValid = false ∧
      t.out.immValid = true ∧ t.out.imm = (t.word.extractLsb 7 0).setWidth 16) ∧
    (t.out.op ∈ [7#6, 9#6, 12#6, 16#6, 17#6, 18#6, 19#6, 20#6, 21#6, 22#6] ∨
      (t.out.op = 14#6 ∧ t.word.extractLsb 15 12 = 8#4) →
      t.out.vxValid = true ∧ t.out.vx = t.word.extractLsb 11 8 ∧
      t.out.vyValid = true ∧ t.out.vy = t.word.extractLsb 7 4 ∧ t.out.immValid = false) ∧
    (t.out.op = 24#6 →
      t.out.vxValid = true ∧ t.out.vx = t.word.extractLsb 11 8 ∧
      t.out.vyValid = true ∧ t.out.vy = t.word.extractLsb 7 4 ∧
      t.out.immValid = true ∧ t.out.imm = (t.word.extractLsb 3 0).setWidth 16) ∧
    (t.out.op ∈ [25#6, 26#6, 27#6, 28#6, 29#6, 30#6, 31#6, 32#6, 33#6, 34#6, 35#6] →
      t.out.vxValid = true ∧ t.out.vx = t.word.extractLsb 11 8 ∧ t.out.vyValid = false ∧
      t.out.immValid = false) ∧
    (t.out.op = 0#6 →
      t.out.vxValid = false ∧ t.out.vyValid = false ∧ t.out.immValid = true ∧
      t.out.imm = t.word)

/-- V-PR4: two words drive the same wires exactly when they are the same word, or both are in family 5
or both in family 9 and they agree in bits 15:4. -/
def Obligations.OutputsIdentifyTheWord : Prop :=
  ∀ (s t s' t' : State), step s = .next t → step s' = .next t' →
    (t.out = t'.out ↔
      t.word = t'.word ∨
      (t.word.extractLsb 15 4 = t'.word.extractLsb 15 4 ∧
        (t.word.extractLsb 15 12 = 5#4 ∨ t.word.extractLsb 15 12 = 9#4)))

/-! ### The port encoding -/

/-- R27: after a step the wires encode the decoded record field by field, an absent field's bus 0. -/
def Obligations.WiresEncodeTheRecord : Prop :=
  ∀ (s t : State) (d : Decoded), step s = .next t → d = refDecode t.word →
    (∀ tag, d.op = some tag → t.out.op = tagCode tag ∧ t.out.opValid = true) ∧
    (d.op = none → t.out.op = 0#6 ∧ t.out.opValid = false) ∧
    t.out.opValid = (t.out.op != 0#6) ∧
    (∀ v, d.vx = some v → t.out.vxValid = true ∧ t.out.vx = v) ∧
    (d.vx = none → t.out.vxValid = false ∧ t.out.vx = 0#4) ∧
    (∀ v, d.vy = some v → t.out.vyValid = true ∧ t.out.vy = v) ∧
    (d.vy = none → t.out.vyValid = false ∧ t.out.vy = 0#4) ∧
    (∀ v, d.imm = some v → t.out.immValid = true ∧ t.out.imm = v) ∧
    (d.imm = none → t.out.immValid = false ∧ t.out.imm = 0#16)

/-- R24 and R25: the 35 tags have the codes 1 to 35 in the order of the table, and no two share one. -/
def Obligations.TagCodesAreOneToThirtyFive : Prop :=
  (∀ t : Tag, t ∈ allTags) ∧ allTags.map (fun t => (tagCode t).toNat) = List.range' 1 35 ∧
  (∀ t u : Tag, tagCode t = tagCode u → t = u)

/-- R28: a consumer reads back every record from its wires, every legal wire value is the encoding of
the record it reads back as, and a step never drives an illegal one. -/
def Obligations.WireEncodingIsABijection : Prop :=
  (∀ d : Decoded, recordOf (portsOf d) = d) ∧
  (∀ p : Ports, legalPorts p = true → portsOf (recordOf p) = p) ∧
  (∀ s t : State, step s = .next t → legalPorts t.out = true)

/-! ### No history, no interference -/

/-- R34: the outputs after a step depend on the word then on the input alone, whatever was decoded
before and whatever any other part of the state holds. -/
def Obligations.OutputsDependOnTheWordAlone : Prop :=
  ∀ (s t s' t' : State), step s = .next t → step s' = .next t' →
    s.pending.headD s.word = s'.pending.headD s'.word → t.out = t'.out

/-- R181: the extractor's ports after a step do not depend on the decoder's ports or words. -/
def Obligations.ExtractorDependsOnItsOwnInputsAlone : Prop :=
  ∀ (s t s' t' : State), step s = .next t → step s' = .next t' →
    s.nx.word = s'.nx.word → s.nx.idx = s'.nx.idx → s.nxPending = s'.nxPending → t.nx = t'.nx

/-- R44: with no new input, decoding the same word any number of times changes nothing. -/
def Obligations.DecodingAgainChangesNothing : Prop :=
  ∀ (s t : State) (n : Nat), s.pending = [] → s.nxPending = [] → step s = .next t →
    Sys2Proof.core.run n t = .next t

/-! ### The instruction stream -/

/-- R40 and R42: a stream of L bytes gives L/2 words, the k-th with byte 2k high and byte 2k+1 low; an odd
trailing byte is dropped. -/
def Obligations.StreamWordsAreBigEndianPairs : Prop :=
  ∀ bytes : List Byte, (wordsOfStream bytes).length = bytes.length / 2 ∧
    ∀ (k : Nat) (h : 2 * k + 1 < bytes.length),
      (wordsOfStream bytes)[k]? = some (bytes[2 * k] ++ bytes[2 * k + 1])

/-- R47 with R40 and R42: from every state, a byte stream given to the environment is decoded in stream
order, one word a step: after k + 1 steps the k-th word is on the input and its decode on the wires.
That one step takes one word is the model's choice (log entry 2). -/
def Obligations.StreamIsDecodedInOrder : Prop :=
  ∀ (s : State) (bytes : List Byte) (k : Nat) (h : 2 * k + 1 < bytes.length),
    ∃ t : State, Sys2Proof.core.run (k + 1) (s.loadStream bytes) = .next t ∧
      t.word = bytes[2 * k] ++ bytes[2 * k + 1] ∧
      recordOf t.out = refDecode (bytes[2 * k] ++ bytes[2 * k + 1])

/-- What a step takes from the environment: the next word and the next extractor inputs, or the ones
already there. The queues are the model's own (log entries 2 and 3). -/
def Obligations.StepTakesTheNextInputs : Prop :=
  ∀ (s t : State), step s = .next t →
    (s.pending = [] → t.word = s.word ∧ t.pending = []) ∧
    (∀ w rest, s.pending = w :: rest → t.word = w ∧ t.pending = rest) ∧
    (s.nxPending = [] → t.nx.word = s.nx.word ∧ t.nx.idx = s.nx.idx ∧ t.nxPending = []) ∧
    (∀ w i rest, s.nxPending = (w, i) :: rest →
      t.nx.word = w ∧ t.nx.idx = i ∧ t.nxPending = rest)

/-! ### The nibble extractor and the sampling rule -/

/-- R61: the extractor drives the nibble its index selects, nibble 0 the most significant. -/
def Obligations.ExtractorDrivesTheSelectedNibble : Prop :=
  ∀ s t : State, step s = .next t →
    (t.nx.idx = 0#2 → t.nx.nib = t.nx.word.extractLsb 15 12) ∧
    (t.nx.idx = 1#2 → t.nx.nib = t.nx.word.extractLsb 11 8) ∧
    (t.nx.idx = 2#2 → t.nx.nib = t.nx.word.extractLsb 7 4) ∧
    (t.nx.idx = 3#2 → t.nx.nib = t.nx.word.extractLsb 3 0)

/-- R193: a consumer that samples after the input has been stable for `T_PD` reads the decode of the word
on the input, whatever `T_PD` is and whatever the outputs showed before. -/
def Obligations.SampleAfterSettlingIsTheDecode : Prop :=
  ∀ (s t : State) (elapsed k : Nat), step s = .next t → Config.tPD ≤ elapsed →
    recordOf (sampleAt elapsed k t) = refDecode t.word

/-! ### Encoding -/

/-- No bit of an encoding is dropped: decoding the word of a well-formed instruction gives it back with
every operand, for every instruction and every operand value. -/
def Obligations.DecodeOfEncodeIsTheInstruction : Prop :=
  ∀ i : Instr, i.wellFormed = true → decodeWord (encode i) = i

/-- The other direction: every word decodes to a well-formed instruction, and the words that decode to
an instruction are exactly those listed for it, 16 for SE and SNE and one for every other. -/
def Obligations.EncodingsAreExactlyTheWords : Prop :=
  ∀ w : Word, (decodeWord w).wellFormed = true ∧
    ∀ i : Instr, i.wellFormed = true → (decodeWord w = i ↔ w ∈ encodings i)

/-- Decoding is total on any bytes: two bytes or more give the instruction of the first word, high byte
first, and leave the rest; a partial word is rejected by name. -/
def Obligations.DecodeIsTotalOnBytes : Prop :=
  (∀ (high low : Byte) (rest : List Byte),
    decodeBytes (high :: low :: rest) = .ok (decodeWord (high ++ low), rest)) ∧
  (∀ bytes : List Byte, decodeBytes bytes = .error .partialWord ↔ bytes.length < 2)

/-- R82: its own examples, and a zero immediate and a two-digit register. -/
def Obligations.SpellingExamples : Prop :=
  spell 0x1234#16 = "JPI 0x234".toList ∧ spell 0x5120#16 = "SE V1 V2".toList ∧
  spell 0xD120#16 = "DRW V1 V2 0x0".toList ∧ spell 0xF10A#16 = "LD_VX_K V1".toList ∧
  spell 0x8128#16 = ".word 0x8128".toList ∧ spell 0x812E#16 = ".word 0x812e".toList ∧
  spell 0x4F00#16 = "SNEI V15 0x0".toList
end

