-- ==== Sys2Proof/Laws/Fields.lean ====
section
/-! SUPPORT. The bits of the words the encoder builds, the fields read back from them, the words rebuilt
from their fields, and the match conditions of the opcode table as conditions on fields. -/

namespace Sys2Proof.Laws

theorem getLsbD_wordOfBytes (high low : Byte) (i : Nat) :
    (wordOfBytes high low).getLsbD i = if i < 8 then low.getLsbD i else high.getLsbD (i - 8) := by
  show (high ++ low : BitVec (8 + 8)).getLsbD i = _
  simp only [BitVec.getLsbD_append]

theorem getLsbD_wordA (f : Nibble) (nnn : Addr) (i : Nat) :
    (wordA f nnn).getLsbD i = if i < 12 then nnn.getLsbD i else f.getLsbD (i - 12) := by
  show (f ++ nnn : BitVec (4 + 12)).getLsbD i = _
  simp only [BitVec.getLsbD_append]

theorem getLsbD_wordXK (f : Nibble) (x : RegIdx) (kk : Byte) (i : Nat) :
    (wordXK f x kk).getLsbD i =
      if i < 8 then kk.getLsbD i else if i < 12 then x.getLsbD (i - 8) else f.getLsbD (i - 12) := by
  show ((f ++ x : BitVec (4 + 4)) ++ kk : BitVec (4 + 4 + 8)).getLsbD i = _
  simp only [BitVec.getLsbD_append]
  split <;> [rfl; skip]
  have : i - 8 < 4 ↔ i < 12 := by omega
  simp [this, Nat.sub_sub]

theorem getLsbD_wordXYN (f : Nibble) (x y : RegIdx) (n : Nibble) (i : Nat) :
    (wordXYN f x y n).getLsbD i =
      if i < 4 then n.getLsbD i
      else if i < 8 then y.getLsbD (i - 4)
      else if i < 12 then x.getLsbD (i - 8) else f.getLsbD (i - 12) := by
  show ((f ++ x : BitVec (4 + 4)) ++ (y ++ n : BitVec (4 + 4)) : BitVec (4 + 4 + (4 + 4))).getLsbD i = _
  simp only [BitVec.getLsbD_append]
  have h8 : 4 + 4 = 8 := rfl
  have : i - 8 < 4 ↔ i < 12 := by omega
  by_cases h4 : i < 4
  · simp [h4, show i < 8 by omega]
  · by_cases h : i < 8
    · simp [h4, h]
    · simp [h4, h, this, Nat.sub_sub]

/-! ### Fields of a built word -/

@[simp] theorem fieldF_wordA (f : Nibble) (nnn : Addr) : fieldF (wordA f nnn) = f := by
  apply BitVec.eq_of_getLsbD_eq; intro i hi
  simp [fieldF, nib, getLsbD_wordA, hi]

@[simp] theorem fieldNNN_wordA (f : Nibble) (nnn : Addr) : fieldNNN (wordA f nnn) = nnn := by
  apply BitVec.eq_of_getLsbD_eq; intro i hi
  simp [fieldNNN, getLsbD_wordA, hi]

@[simp] theorem fieldF_wordXK (f : Nibble) (x : RegIdx) (kk : Byte) : fieldF (wordXK f x kk) = f := by
  apply BitVec.eq_of_getLsbD_eq; intro i hi
  have : ¬ 12 + i < 8 := by omega
  simp [fieldF, nib, getLsbD_wordXK, hi, this]

@[simp] theorem fieldX_wordXK (f : Nibble) (x : RegIdx) (kk : Byte) : fieldX (wordXK f x kk) = x := by
  apply BitVec.eq_of_getLsbD_eq; intro i hi
  have : 8 + i < 12 := by omega
  simp [fieldX, nib, getLsbD_wordXK, hi, this]

@[simp] theorem fieldKK_wordXK (f : Nibble) (x : RegIdx) (kk : Byte) :
    fieldKK (wordXK f x kk) = kk := by
  apply BitVec.eq_of_getLsbD_eq; intro i hi
  simp [fieldKK, getLsbD_wordXK, hi]

@[simp] theorem fieldF_wordXYN (f : Nibble) (x y : RegIdx) (n : Nibble) :
    fieldF (wordXYN f x y n) = f := by
  apply BitVec.eq_of_getLsbD_eq; intro i hi
  have h4 : ¬ 12 + i < 4 := by omega
  have h8 : ¬ 12 + i < 8 := by omega
  simp [fieldF, nib, getLsbD_wordXYN, hi, h4, h8]

@[simp] theorem fieldX_wordXYN (f : Nibble) (x y : RegIdx) (n : Nibble) :
    fieldX (wordXYN f x y n) = x := by
  apply BitVec.eq_of_getLsbD_eq; intro i hi
  have h4 : ¬ 8 + i < 4 := by omega
  have h12 : 8 + i < 12 := by omega
  simp [fieldX, nib, getLsbD_wordXYN, hi, h4, h12]

@[simp] theorem fieldY_wordXYN (f : Nibble) (x y : RegIdx) (n : Nibble) :
    fieldY (wordXYN f x y n) = y := by
  apply BitVec.eq_of_getLsbD_eq; intro i hi
  have h8 : 4 + i < 8 := by omega
  simp [fieldY, nib, getLsbD_wordXYN, hi, h8]

@[simp] theorem fieldN_wordXYN (f : Nibble) (x y : RegIdx) (n : Nibble) :
    fieldN (wordXYN f x y n) = n := by
  apply BitVec.eq_of_getLsbD_eq; intro i hi
  simp [fieldN, nib, getLsbD_wordXYN, hi]

/-! ### A word is its fields -/

@[simp] theorem wordA_fields (w : Word) : wordA (fieldF w) (fieldNNN w) = w := by
  apply BitVec.eq_of_getLsbD_eq; intro i hi
  simp only [getLsbD_wordA, fieldF, fieldNNN, nib, BitVec.getLsbD_extractLsb']
  split
  · simp [*]
  · simp [show i - 12 < 4 by omega, show 12 + (i - 12) = i by omega]

@[simp] theorem wordXK_fields (w : Word) : wordXK (fieldF w) (fieldX w) (fieldKK w) = w := by
  apply BitVec.eq_of_getLsbD_eq; intro i hi
  simp only [getLsbD_wordXK, fieldF, fieldX, fieldKK, nib, BitVec.getLsbD_extractLsb']
  split
  · simp [*]
  · split
    · simp [show i - 8 < 4 by omega, show 8 + (i - 8) = i by omega]
    · simp [show i - 12 < 4 by omega, show 12 + (i - 12) = i by omega]

@[simp] theorem wordXYN_fields (w : Word) :
    wordXYN (fieldF w) (fieldX w) (fieldY w) (fieldN w) = w := by
  apply BitVec.eq_of_getLsbD_eq; intro i hi
  simp only [getLsbD_wordXYN, fieldF, fieldX, fieldY, fieldN, nib, BitVec.getLsbD_extractLsb']
  split
  · simp [*]
  · split
    · simp [show i - 4 < 4 by omega, show 4 + (i - 4) = i by omega]
    · split
      · simp [show i - 8 < 4 by omega, show 8 + (i - 8) = i by omega]
      · simp [show i - 12 < 4 by omega, show 12 + (i - 12) = i by omega]

/-- Two words are equal when their family, register and low byte are. -/
theorem word_ext_XK {v w : Word} (hf : fieldF v = fieldF w) (hx : fieldX v = fieldX w)
    (hk : fieldKK v = fieldKK w) : v = w := by
  rw [← wordXK_fields v, ← wordXK_fields w, hf, hx, hk]

/-- Two words are equal when their four nibbles are. -/
theorem word_ext_nibbles {v w : Word} (hf : fieldF v = fieldF w) (hx : fieldX v = fieldX w)
    (hy : fieldY v = fieldY w) (hn : fieldN v = fieldN w) : v = w := by
  rw [← wordXYN_fields v, ← wordXYN_fields w, hf, hx, hy, hn]

/-! ### Slices in the spec's notation `w[hi:lo]` -/

theorem fieldF_eq_slice (w : Word) : fieldF w = w.extractLsb 15 12 := rfl
theorem fieldX_eq_slice (w : Word) : fieldX w = w.extractLsb 11 8 := rfl
theorem fieldY_eq_slice (w : Word) : fieldY w = w.extractLsb 7 4 := rfl
theorem fieldN_eq_slice (w : Word) : fieldN w = w.extractLsb 3 0 := rfl
theorem fieldKK_eq_slice (w : Word) : fieldKK w = w.extractLsb 7 0 := rfl
theorem fieldNNN_eq_slice (w : Word) : fieldNNN w = w.extractLsb 11 0 := rfl

/-! ### Masked words -/

/-- Bits 15:12 of a word, the rest 0. -/
theorem and_family (w : Word) : w &&& 0xF000#16 = wordXYN (fieldF w) 0#4 0#4 0#4 := by
  apply BitVec.eq_of_getLsbD_eq; intro i hi
  simp only [BitVec.getLsbD_and, getLsbD_wordXYN, fieldF, nib, BitVec.getLsbD_extractLsb']
  interval_cases i <;> simp

/-- Bits 15:12 and 3:0 of a word, the rest 0. -/
theorem and_family_nibble (w : Word) :
    w &&& 0xF00F#16 = wordXYN (fieldF w) 0#4 0#4 (fieldN w) := by
  apply BitVec.eq_of_getLsbD_eq; intro i hi
  simp only [BitVec.getLsbD_and, getLsbD_wordXYN, fieldF, fieldN, nib, BitVec.getLsbD_extractLsb']
  interval_cases i <;> simp

/-- Bits 15:12 and 7:0 of a word, the rest 0. -/
theorem and_family_byte (w : Word) : w &&& 0xF0FF#16 = wordXK (fieldF w) 0#4 (fieldKK w) := by
  apply BitVec.eq_of_getLsbD_eq; intro i hi
  simp only [BitVec.getLsbD_and, getLsbD_wordXK, fieldF, fieldKK, nib, BitVec.getLsbD_extractLsb']
  interval_cases i <;> simp

/-- Bits 3:0 of a word, the rest 0. -/
theorem and_nibble (w : Word) : w &&& 0x000F#16 = wordXYN 0#4 0#4 0#4 (fieldN w) := by
  apply BitVec.eq_of_getLsbD_eq; intro i hi
  simp only [BitVec.getLsbD_and, getLsbD_wordXYN, fieldN, nib, BitVec.getLsbD_extractLsb']
  interval_cases i <;> simp

/-- Bits 7:0 of a word, the rest 0. -/
theorem and_byte (w : Word) : w &&& 0x00FF#16 = wordXK 0#4 0#4 (fieldKK w) := by
  apply BitVec.eq_of_getLsbD_eq; intro i hi
  simp only [BitVec.getLsbD_and, getLsbD_wordXK, fieldKK, BitVec.getLsbD_extractLsb']
  interval_cases i <;> simp

/-- A match under mask 0xF000 is a condition on the family selector. -/
theorem match_family_iff (w v : Word) (hv : v = wordXYN (fieldF v) 0#4 0#4 0#4) :
    w &&& 0xF000#16 = v ↔ fieldF w = fieldF v := by
  rw [and_family]
  constructor
  · intro h; rw [← h]; simp
  · intro h; rw [h]; exact hv.symm

/-- A match under mask 0xF00F is a condition on nibbles 0 and 3. -/
theorem match_family_nibble_iff (w v : Word) (hv : v = wordXYN (fieldF v) 0#4 0#4 (fieldN v)) :
    w &&& 0xF00F#16 = v ↔ fieldF w = fieldF v ∧ fieldN w = fieldN v := by
  rw [and_family_nibble]
  constructor
  · intro h; rw [← h]; simp
  · rintro ⟨hf, hn⟩; rw [hf, hn]; exact hv.symm

/-- A match under mask 0xF0FF is a condition on nibble 0 and the low byte. -/
theorem match_family_byte_iff (w v : Word) (hv : v = wordXK (fieldF v) 0#4 (fieldKK v)) :
    w &&& 0xF0FF#16 = v ↔ fieldF w = fieldF v ∧ fieldKK w = fieldKK v := by
  rw [and_family_byte]
  constructor
  · intro h; rw [← h]; simp
  · rintro ⟨hf, hk⟩; rw [hf, hk]; exact hv.symm

/-! ### Bytes and streams -/

@[simp] theorem highByte_wordOfBytes (high low : Byte) : highByte (wordOfBytes high low) = high := by
  apply BitVec.eq_of_getLsbD_eq; intro i hi
  simp [highByte, getLsbD_wordOfBytes, hi]

@[simp] theorem lowByte_wordOfBytes (high low : Byte) : lowByte (wordOfBytes high low) = low := by
  apply BitVec.eq_of_getLsbD_eq; intro i hi
  simp [lowByte, getLsbD_wordOfBytes, hi]

@[simp] theorem wordOfBytes_bytes (w : Word) : wordOfBytes (highByte w) (lowByte w) = w := by
  apply BitVec.eq_of_getLsbD_eq; intro i hi
  simp only [getLsbD_wordOfBytes, highByte, lowByte, BitVec.getLsbD_extractLsb']
  split
  · simp [*]
  · simp [show i - 8 < 8 by omega, show 8 + (i - 8) = i by omega]

@[simp] theorem wordsOfStream_nil : wordsOfStream [] = [] := rfl

@[simp] theorem wordsOfStream_odd (b : Byte) : wordsOfStream [b] = [] := rfl

@[simp] theorem wordsOfStream_cons (high low : Byte) (rest : List Byte) :
    wordsOfStream (high :: low :: rest) = wordOfBytes high low :: wordsOfStream rest := rfl

/-- The bytes of a sequence of words form those words again. -/
@[simp] theorem wordsOfStream_bytesOfWords (ws : List Word) :
    wordsOfStream (bytesOfWords ws) = ws := by
  induction ws with
  | nil => rfl
  | cons w ws ih =>
    show wordsOfStream (highByte w :: lowByte w :: bytesOfWords ws) = _
    simp [ih]

end Sys2Proof.Laws
end

