-- ==== Sys2Proof/Laws/Decode.lean ====
section
/-! SUPPORT. What the dispatch answers, one lemma for each branch of 30_encoding.md R66. -/

namespace Sys2Proof.Laws

@[simp] theorem decodeWord_cls : decodeWord 0x00E0#16 = .cls := rfl

@[simp] theorem decodeWord_ret : decodeWord 0x00EE#16 = .ret := rfl

/-- Step 1 of R66 concerns family 0 alone. -/
theorem decodeWord_of_family {w : Word} (h : fieldF w ≠ 0#4) : decodeWord w = decodeFamily w := by
  have h1 : w ≠ 0x00E0#16 := by rintro rfl; exact h rfl
  have h2 : w ≠ 0x00EE#16 := by rintro rfl; exact h rfl
  simp [decodeWord, h1, h2]

/-- R66: family 0 has no pattern besides the two exact words. -/
theorem decodeWord_family0 {w : Word} (h : fieldF w = 0#4) (h1 : w ≠ 0x00E0#16)
    (h2 : w ≠ 0x00EE#16) : decodeWord w = .fallback w := by
  simp [decodeWord, decodeFamily, h, h1, h2]

/-- A word whose family and nibbles are known decodes by its family. -/
theorem decodeWord_wordXYN {f : Nibble} (h : f ≠ 0#4) (x y : RegIdx) (n : Nibble) :
    decodeWord (wordXYN f x y n) = decodeFamily (wordXYN f x y n) :=
  decodeWord_of_family (by simpa using h)

/-- A word whose family and low byte are known decodes by its family. -/
theorem decodeWord_wordXK {f : Nibble} (h : f ≠ 0#4) (x : RegIdx) (kk : Byte) :
    decodeWord (wordXK f x kk) = decodeFamily (wordXK f x kk) :=
  decodeWord_of_family (by simpa using h)

/-- A word whose family and low 12 bits are known decodes by its family. -/
theorem decodeWord_wordA {f : Nibble} (h : f ≠ 0#4) (nnn : Addr) :
    decodeWord (wordA f nnn) = decodeFamily (wordA f nnn) :=
  decodeWord_of_family (by simpa using h)

@[simp] theorem decodeBytes_cons (high low : Byte) (rest : List Byte) :
    decodeBytes (high :: low :: rest) = .ok (decodeWord (wordOfBytes high low), rest) := rfl

@[simp] theorem decodeBytes_nil : decodeBytes [] = .error .partialWord := rfl

@[simp] theorem decodeBytes_single (b : Byte) : decodeBytes [b] = .error .partialWord := rfl

/-- The host's view of the decoder is the decoder on the word of those bits. -/
@[simp] theorem decodeTableWord_eq (nbits w : Nat) :
    decodeTableWord nbits w = some (decodeWord (BitVec.ofNat 16 (w % 2 ^ nbits))) := by
  simp [decodeTableWord]

end Sys2Proof.Laws
end

