-- ==== Sys2Proof/Laws/State.lean ====
section
/-! SUPPORT. One lemma per field per update of State, so that no proof unfolds a record update. -/

namespace Sys2Proof.Laws

open Sys2Proof.Machine

/-! ### The extractor -/

@[simp] theorem settle_word (n : NibbleExtractor) : n.settle.word = n.word := rfl
@[simp] theorem settle_idx (n : NibbleExtractor) : n.settle.idx = n.idx := rfl
@[simp] theorem settle_nib (n : NibbleExtractor) : n.settle.nib = nib n.word n.idx := rfl

/-! ### Presenting a word -/

@[simp] theorem presentWord_out (s : State) : (presentWord s).out = s.out := by
  unfold presentWord; split <;> rfl
@[simp] theorem presentWord_nx (s : State) : (presentWord s).nx = s.nx := by
  unfold presentWord; split <;> rfl
@[simp] theorem presentWord_nxPending (s : State) : (presentWord s).nxPending = s.nxPending := by
  unfold presentWord; split <;> rfl
@[simp] theorem presentWord_word (s : State) : (presentWord s).word = s.pending.headD s.word := by
  unfold presentWord; split <;> simp [*]
@[simp] theorem presentWord_pending (s : State) : (presentWord s).pending = s.pending.tail := by
  unfold presentWord; split <;> simp [*]

/-! ### Presenting the extractor's inputs -/

@[simp] theorem presentNibble_word (s : State) : (presentNibble s).word = s.word := by
  unfold presentNibble; split <;> rfl
@[simp] theorem presentNibble_out (s : State) : (presentNibble s).out = s.out := by
  unfold presentNibble; split <;> rfl
@[simp] theorem presentNibble_pending (s : State) : (presentNibble s).pending = s.pending := by
  unfold presentNibble; split <;> rfl
@[simp] theorem presentNibble_nxPending (s : State) :
    (presentNibble s).nxPending = s.nxPending.tail := by
  unfold presentNibble; split <;> simp [*]
@[simp] theorem presentNibble_nx_word (s : State) :
    (presentNibble s).nx.word = (s.nxPending.headD (s.nx.word, s.nx.idx)).1 := by
  unfold presentNibble; split <;> simp [*]
@[simp] theorem presentNibble_nx_idx (s : State) :
    (presentNibble s).nx.idx = (s.nxPending.headD (s.nx.word, s.nx.idx)).2 := by
  unfold presentNibble; split <;> simp [*]
/-- The extractor's output follows its inputs at every sampling point. -/
theorem presentNibble_nx_nib (s : State) :
    (presentNibble s).nx.nib = nib (presentNibble s).nx.word (presentNibble s).nx.idx := by
  unfold presentNibble; split <;> rfl

/-! ### Both -/

@[simp] theorem present_word (s : State) : (present s).word = s.pending.headD s.word := by
  simp [present]
@[simp] theorem present_out (s : State) : (present s).out = s.out := by simp [present]
@[simp] theorem present_pending (s : State) : (present s).pending = s.pending.tail := by
  simp [present]
@[simp] theorem present_nxPending (s : State) : (present s).nxPending = s.nxPending.tail := by
  simp [present]
theorem present_nx (s : State) : (present s).nx = (presentNibble s).nx := by
  simp only [present, presentNibble, presentWord_nxPending, presentWord_nx]
  split <;> rfl

/-! ### Inputs from outside -/

@[simp] theorem loadStream_word (s : State) (bs : List Byte) : (s.loadStream bs).word = s.word := rfl
@[simp] theorem loadStream_out (s : State) (bs : List Byte) : (s.loadStream bs).out = s.out := rfl
@[simp] theorem loadStream_nx (s : State) (bs : List Byte) : (s.loadStream bs).nx = s.nx := rfl
@[simp] theorem loadStream_pending (s : State) (bs : List Byte) :
    (s.loadStream bs).pending = wordsOfStream bs := rfl
@[simp] theorem loadStream_nxPending (s : State) (bs : List Byte) :
    (s.loadStream bs).nxPending = s.nxPending := rfl

@[simp] theorem withFetchWord_word (s : State) (nbits w : Nat) :
    (s.withFetchWord nbits w).word = s.word := rfl
@[simp] theorem withFetchWord_out (s : State) (nbits w : Nat) :
    (s.withFetchWord nbits w).out = s.out := rfl
@[simp] theorem withFetchWord_nx (s : State) (nbits w : Nat) :
    (s.withFetchWord nbits w).nx = s.nx := rfl
@[simp] theorem withFetchWord_pending (s : State) (nbits w : Nat) :
    (s.withFetchWord nbits w).pending = BitVec.ofNat 16 (w % 2 ^ nbits) :: s.pending := rfl
@[simp] theorem withFetchWord_nxPending (s : State) (nbits w : Nat) :
    (s.withFetchWord nbits w).nxPending = s.nxPending := rfl

end Sys2Proof.Laws
end

