-- ==== Sys2Proof/Laws/Ops.lean ====
section
/-! SUPPORT. What each shared operation can do, said once. -/

namespace Sys2Proof.Laws

open Sys2Proof.Machine

/-- `drive` always answers a next state, and changes the output wires alone. -/
@[simp] theorem drive_next_iff (d : Decoded) (s t : State) :
    drive d s = .next t ↔ t = { s with out := portsOf d } := by
  simp [drive, eq_comm]

/-- A present field puts its value on its bus, with its valid wire 1. -/
@[simp] theorem fieldBus_some {n : Nat} (v : BitVec n) : fieldBus (some v) = v := rfl
@[simp] theorem fieldBus_none {n : Nat} : fieldBus (none : Option (BitVec n)) = 0#n := rfl
@[simp] theorem validWire_some {n : Nat} (v : BitVec n) : validWire (some v) = true := rfl
@[simp] theorem validWire_none {n : Nat} : validWire (none : Option (BitVec n)) = false := rfl
@[simp] theorem opBus_some (t : Tag) : opBus (some t) = tagCode t := rfl
@[simp] theorem opBus_none : opBus none = 0#6 := rfl
@[simp] theorem opValidWire_some (t : Tag) : opValidWire (some t) = true := rfl
@[simp] theorem opValidWire_none : opValidWire none = false := rfl

/-- Every tag's code reads back as the tag. -/
@[simp] theorem tagOfCode_tagCode (t : Tag) : tagOfCode (tagCode t) = some t := by
  cases t <;> rfl

/-- Tags have different codes. -/
theorem tagCode_inj {t u : Tag} (h : tagCode t = tagCode u) : t = u := by
  simpa using congrArg tagOfCode h

/-- The code of a tag is 1 to 35, so it is never the code NONE. -/
theorem tagCode_range (t : Tag) : 1 ≤ (tagCode t).toNat ∧ (tagCode t).toNat ≤ 35 := by
  cases t <;> decide

/-- A code of 1 to 35 is the code of the tag it stands for. -/
theorem tagOfCode_of_range (c : OpCode) (h0 : c ≠ 0#6) (h : c.toNat < 36) :
    ∃ t, tagOfCode c = some t ∧ tagCode t = c := by
  revert c; decide

/-- The wires of a record of format `EXACT`, and so on down the formats of R63. -/
theorem portsOf_recordExact (t : Tag) :
    portsOf (recordExact t) = ⟨true, tagCode t, false, 0#4, false, 0#4, false, 0#16⟩ := rfl
theorem portsOf_recordA (t : Tag) (nnn : Addr) :
    portsOf (recordA t nnn) = ⟨true, tagCode t, false, 0#4, false, 0#4, true, zext16 nnn⟩ := rfl
theorem portsOf_recordXK (t : Tag) (x : RegIdx) (kk : Byte) :
    portsOf (recordXK t x kk) = ⟨true, tagCode t, true, x, false, 0#4, true, zext16 kk⟩ := rfl
theorem portsOf_recordXY (t : Tag) (x y : RegIdx) :
    portsOf (recordXY t x y) = ⟨true, tagCode t, true, x, true, y, false, 0#16⟩ := rfl
theorem portsOf_recordXYN (t : Tag) (x y : RegIdx) (n : Nibble) :
    portsOf (recordXYN t x y n) = ⟨true, tagCode t, true, x, true, y, true, zext16 n⟩ := rfl
theorem portsOf_recordX (t : Tag) (x : RegIdx) :
    portsOf (recordX t x) = ⟨true, tagCode t, true, x, false, 0#4, false, 0#16⟩ := rfl
theorem portsOf_recordRaw (w : Word) :
    portsOf (recordRaw w) = ⟨false, 0#6, false, 0#4, false, 0#4, true, w⟩ := rfl

/-- A zero-extended immediate keeps its value. -/
@[simp] theorem zext16_toNat {n : Nat} (hn : n ≤ 16) (v : BitVec n) :
    (zext16 v).toNat = v.toNat := by
  have : v.toNat < 2 ^ 16 := Nat.lt_of_lt_of_le v.isLt (Nat.pow_le_pow_right (by omega) hn)
  simpa [zext16] using this

end Sys2Proof.Laws
end

