-- ==== Sys2Proof/Laws/WellFormed.lean ====
section
/-! SUPPORT. The unmatched words of 30_encoding.md R72 as conditions on fields. -/

namespace Sys2Proof.Laws

/-- R72's masks and ranges, read as the dispatch reads them. -/
theorem unmatched_iff (w : Word) : unmatched w = true ↔
    (fieldF w = 0x0#4 ∧ w ≠ 0x00E0#16 ∧ w ≠ 0x00EE#16) ∨
    (fieldF w = 0x8#4 ∧ 8 ≤ (fieldN w).toNat ∧ (fieldN w).toNat ≤ 14) ∨
    (fieldF w = 0xE#4 ∧ fieldKK w ∉ [0x9E#8, 0xA1#8]) ∨
    (fieldF w = 0xF#4 ∧
      fieldKK w ∉ [0x07#8, 0x0A#8, 0x15#8, 0x18#8, 0x1E#8, 0x29#8, 0x33#8, 0x55#8, 0x65#8]) := by
  have hn : ∀ n : Nibble, (0x8#16 ≤ wordXYN 0#4 0#4 0#4 n ∧ wordXYN 0#4 0#4 0#4 n ≤ 0xE#16) ↔
      (8 ≤ n.toNat ∧ n.toNat ≤ 14) := by decide
  have hE : ∀ kk : Byte, wordXK 0#4 0#4 kk ∈ [0x9E#16, 0xA1#16] ↔ kk ∈ [0x9E#8, 0xA1#8] := by
    decide
  have hF : ∀ kk : Byte,
      wordXK 0#4 0#4 kk ∈
        [0x07#16, 0x0A#16, 0x15#16, 0x18#16, 0x1E#16, 0x29#16, 0x33#16, 0x55#16, 0x65#16] ↔
      kk ∈ [0x07#8, 0x0A#8, 0x15#8, 0x18#8, 0x1E#8, 0x29#8, 0x33#8, 0x55#8, 0x65#8] := by
    decide
  simp only [unmatched, unmatchedFamily0, unmatchedFamily8, unmatchedFamilyE, unmatchedFamilyF,
    Bool.or_eq_true, Bool.and_eq_true, Bool.not_eq_true', beq_iff_eq, bne_iff_ne,
    decide_eq_true_eq, List.contains_eq_mem, decide_eq_false_iff_not, and_nibble, and_byte, hn,
    hE, hF, match_family_iff w _ (by decide : (0x0000#16 : Word) = _),
    match_family_iff w _ (by decide : (0x8000#16 : Word) = _),
    match_family_iff w _ (by decide : (0xE000#16 : Word) = _),
    match_family_iff w _ (by decide : (0xF000#16 : Word) = _)]
  simp only [show fieldF 0x0000#16 = 0x0#4 from rfl, show fieldF 0x8000#16 = 0x8#4 from rfl,
    show fieldF 0xE000#16 = 0xE#4 from rfl, show fieldF 0xF000#16 = 0xF#4 from rfl]
  tauto

/-- R68: an unmatched word decodes to the fallback that carries it. -/
theorem decodeWord_of_unmatched {w : Word} (h : unmatched w = true) :
    decodeWord w = .fallback w := by
  rcases (unmatched_iff w).1 h with ⟨hf, h1, h2⟩ | ⟨hf, h1, h2⟩ | ⟨hf, hk⟩ | ⟨hf, hk⟩
  · exact decodeWord_family0 hf h1 h2
  · rw [decodeWord_of_family (by simp [hf])]
    simp only [decodeFamily, hf]
    unfold decodeFamily8
    split <;> simp_all
  · rw [decodeWord_of_family (by simp [hf])]
    simp only [decodeFamily, hf]
    unfold decodeFamilyE
    split <;> simp_all
  · rw [decodeWord_of_family (by simp [hf])]
    simp only [decodeFamily, hf]
    unfold decodeFamilyF
    split <;> simp_all

/-- The sub-opcodes family 8 leaves unmatched. -/
theorem subOpcode_unmatched : ∀ n : Nibble, n ≠ 0x0#4 → n ≠ 0x1#4 → n ≠ 0x2#4 → n ≠ 0x3#4 →
    n ≠ 0x4#4 → n ≠ 0x5#4 → n ≠ 0x6#4 → n ≠ 0x7#4 → n ≠ 0xF#4 → 8 ≤ n.toNat ∧ n.toNat ≤ 14 := by
  decide

theorem fallback_family8 {w v : Word} (h : decodeFamily8 w = .fallback v) :
    (8 ≤ (fieldN w).toNat ∧ (fieldN w).toNat ≤ 14) ∧ v = w := by
  unfold decodeFamily8 at h
  split at h <;> simp at h
  exact ⟨subOpcode_unmatched _ ‹_› ‹_› ‹_› ‹_› ‹_› ‹_› ‹_› ‹_› ‹_›, h.symm⟩

theorem fallback_familyE {w v : Word} (h : decodeFamilyE w = .fallback v) :
    fieldKK w ∉ [0x9E#8, 0xA1#8] ∧ v = w := by
  unfold decodeFamilyE at h
  split at h <;> simp at h
  simp_all

theorem fallback_familyF {w v : Word} (h : decodeFamilyF w = .fallback v) :
    fieldKK w ∉ [0x07#8, 0x0A#8, 0x15#8, 0x18#8, 0x1E#8, 0x29#8, 0x33#8, 0x55#8, 0x65#8] ∧
      v = w := by
  unfold decodeFamilyF at h
  split at h <;> simp at h
  simp_all

/-- A nibble that is none of 1 to 15 is 0. -/
theorem nibble_eq_zero : ∀ f : Nibble, f ≠ 0x1#4 → f ≠ 0x2#4 → f ≠ 0x3#4 → f ≠ 0x4#4 → f ≠ 0x5#4 →
    f ≠ 0x6#4 → f ≠ 0x7#4 → f ≠ 0x8#4 → f ≠ 0x9#4 → f ≠ 0xA#4 → f ≠ 0xB#4 → f ≠ 0xC#4 →
    f ≠ 0xD#4 → f ≠ 0xE#4 → f ≠ 0xF#4 → f = 0x0#4 := by
  intros; bv_omega

/-- R72: only an unmatched word decodes to a fallback, and the fallback carries that word. -/
theorem unmatched_of_decodeWord {w v : Word} (h : decodeWord w = .fallback v) :
    unmatched w = true ∧ v = w := by
  rw [unmatched_iff]
  unfold decodeWord at h
  split at h
  · simp at h
  split at h
  · simp at h
  unfold decodeFamily at h
  split at h <;> try simp at h
  · have := fallback_family8 h; simp_all
  · have := fallback_familyE h; simp_all
  · have := fallback_familyF h; simp_all
  · have : fieldF w = 0x0#4 := by apply nibble_eq_zero <;> assumption
    simp_all

end Sys2Proof.Laws
end

