-- ==== Sys2Proof/Laws/PerInstr.lean ====
section
/-! SUPPORT. Statements for all instructions, one lemma per constructor. RoundTrip: the word the encoder
gives for a well-formed instruction decodes to it. -/

namespace Sys2Proof.Laws.RoundTrip

/-- Decoding the encoded instruction gives it back, with every operand. -/
def Statement (i : Instr) : Prop := i.wellFormed = true → decodeWord (encode i) = i

theorem ret : Statement .ret := fun _ => rfl

theorem jpi (nnn : Addr) : Statement (.jpi nnn) := fun _ => by
  simp [encode, decodeWord_wordA, decodeFamily]

theorem call (nnn : Addr) : Statement (.call nnn) := fun _ => by
  simp [encode, decodeWord_wordA, decodeFamily]

theorem jpo (nnn : Addr) : Statement (.jpo nnn) := fun _ => by
  simp [encode, decodeWord_wordA, decodeFamily]

theorem sei (x : RegIdx) (kk : Byte) : Statement (.sei x kk) := fun _ => by
  simp [encode, decodeWord_wordXK, decodeFamily]

theorem snei (x : RegIdx) (kk : Byte) : Statement (.snei x kk) := fun _ => by
  simp [encode, decodeWord_wordXK, decodeFamily]

theorem se (x : RegIdx) (y : RegIdx) : Statement (.se x y) := fun _ => by
  simp [encode, decodeWord_wordXYN, decodeFamily]

theorem sne (x : RegIdx) (y : RegIdx) : Statement (.sne x y) := fun _ => by
  simp [encode, decodeWord_wordXYN, decodeFamily]

theorem skp (x : RegIdx) : Statement (.skp x) := fun _ => by
  simp [encode, decodeWord_wordXK, decodeFamily, decodeFamilyE]

theorem sknp (x : RegIdx) : Statement (.sknp x) := fun _ => by
  simp [encode, decodeWord_wordXK, decodeFamily, decodeFamilyE]

theorem ldi (x : RegIdx) (kk : Byte) : Statement (.ldi x kk) := fun _ => by
  simp [encode, decodeWord_wordXK, decodeFamily]

theorem addByte (x : RegIdx) (kk : Byte) : Statement (.addByte x kk) := fun _ => by
  simp [encode, decodeWord_wordXK, decodeFamily]

theorem ld (x : RegIdx) (y : RegIdx) : Statement (.ld x y) := fun _ => by
  simp [encode, decodeWord_wordXYN, decodeFamily, decodeFamily8]

theorem or (x : RegIdx) (y : RegIdx) : Statement (.or x y) := fun _ => by
  simp [encode, decodeWord_wordXYN, decodeFamily, decodeFamily8]

theorem and (x : RegIdx) (y : RegIdx) : Statement (.and x y) := fun _ => by
  simp [encode, decodeWord_wordXYN, decodeFamily, decodeFamily8]

theorem xor (x : RegIdx) (y : RegIdx) : Statement (.xor x y) := fun _ => by
  simp [encode, decodeWord_wordXYN, decodeFamily, decodeFamily8]

theorem addReg (x : RegIdx) (y : RegIdx) : Statement (.addReg x y) := fun _ => by
  simp [encode, decodeWord_wordXYN, decodeFamily, decodeFamily8]

theorem sub (x : RegIdx) (y : RegIdx) : Statement (.sub x y) := fun _ => by
  simp [encode, decodeWord_wordXYN, decodeFamily, decodeFamily8]

theorem shr (x : RegIdx) (y : RegIdx) : Statement (.shr x y) := fun _ => by
  simp [encode, decodeWord_wordXYN, decodeFamily, decodeFamily8]

theorem subn (x : RegIdx) (y : RegIdx) : Statement (.subn x y) := fun _ => by
  simp [encode, decodeWord_wordXYN, decodeFamily, decodeFamily8]

theorem shl (x : RegIdx) (y : RegIdx) : Statement (.shl x y) := fun _ => by
  simp [encode, decodeWord_wordXYN, decodeFamily, decodeFamily8]

theorem rnd (x : RegIdx) (kk : Byte) : Statement (.rnd x kk) := fun _ => by
  simp [encode, decodeWord_wordXK, decodeFamily]

theorem sti (nnn : Addr) : Statement (.sti nnn) := fun _ => by
  simp [encode, decodeWord_wordA, decodeFamily]

theorem addIVx (x : RegIdx) : Statement (.addIVx x) := fun _ => by
  simp [encode, decodeWord_wordXK, decodeFamily, decodeFamilyF]

theorem ldFVx (x : RegIdx) : Statement (.ldFVx x) := fun _ => by
  simp [encode, decodeWord_wordXK, decodeFamily, decodeFamilyF]

theorem ldBVx (x : RegIdx) : Statement (.ldBVx x) := fun _ => by
  simp [encode, decodeWord_wordXK, decodeFamily, decodeFamilyF]

theorem ldMemVx (x : RegIdx) : Statement (.ldMemVx x) := fun _ => by
  simp [encode, decodeWord_wordXK, decodeFamily, decodeFamilyF]

theorem ldVxMem (x : RegIdx) : Statement (.ldVxMem x) := fun _ => by
  simp [encode, decodeWord_wordXK, decodeFamily, decodeFamilyF]

theorem ldVxDt (x : RegIdx) : Statement (.ldVxDt x) := fun _ => by
  simp [encode, decodeWord_wordXK, decodeFamily, decodeFamilyF]

theorem ldDtVx (x : RegIdx) : Statement (.ldDtVx x) := fun _ => by
  simp [encode, decodeWord_wordXK, decodeFamily, decodeFamilyF]

theorem ldStVx (x : RegIdx) : Statement (.ldStVx x) := fun _ => by
  simp [encode, decodeWord_wordXK, decodeFamily, decodeFamilyF]

theorem cls : Statement .cls := fun _ => rfl

theorem drw (x : RegIdx) (y : RegIdx) (n : Nibble) : Statement (.drw x y n) := fun _ => by
  simp [encode, decodeWord_wordXYN, decodeFamily]

theorem ldVxK (x : RegIdx) : Statement (.ldVxK x) := fun _ => by
  simp [encode, decodeWord_wordXK, decodeFamily, decodeFamilyF]

theorem fallback (w : Word) : Statement (.fallback w) := fun h => decodeWord_of_unmatched h

end Sys2Proof.Laws.RoundTrip
end

