-- ==== Sys2Proof/Laws/Step.lean ====
section
/-! SUPPORT. What exec and step can do, said once: every instruction drives one record, the same from
every state. -/

namespace Sys2Proof.Laws

open Sys2Proof.Machine

/-- Every meaning drives a record that depends on the instruction alone. -/
theorem exec_drives (i : Instr) : ∃ d, ∀ s, exec i s = drive d s := by
  cases i <;> exact ⟨_, fun _ => rfl⟩

/-- A step, its inputs presented, drives the record of the decoded instruction. -/
theorem step_eq_exec (s : State) : step s = exec (decodeWord (present s).word) (present s) := rfl

/-- Every step answers a next state: the presented inputs, with the outputs driven. -/
theorem step_drives (s : State) :
    ∃ d, (∀ u, exec (decodeWord (s.pending.headD s.word)) u = drive d u) ∧
      step s = .next { present s with out := portsOf d } := by
  obtain ⟨d, hd⟩ := exec_drives (decodeWord (s.pending.headD s.word))
  exact ⟨d, hd, by rw [step_eq_exec, present_word, hd]; rfl⟩

/-- What a step does to everything but the outputs. -/
theorem step_inputs {s t : State} (h : step s = .next t) :
    t.word = s.pending.headD s.word ∧ t.pending = s.pending.tail ∧
      t.nx = (presentNibble s).nx ∧ t.nxPending = s.nxPending.tail := by
  obtain ⟨d, -, hs⟩ := step_drives s
  obtain rfl : { present s with out := portsOf d } = t := by simpa [hs] using h
  exact ⟨present_word s, present_pending s, present_nx s, present_nxPending s⟩

/-- With nothing pending a settled extractor and the decoder's input stay as they are. -/
theorem present_eq_self {s : State} (hp : s.pending = []) (hq : s.nxPending = [])
    (hn : s.nx.nib = nib s.nx.word s.nx.idx) : present s = s := by
  have hw : presentWord s = s := by unfold presentWord; rw [hp]
  have hs : s.nx.settle = s.nx := by unfold NibbleExtractor.settle; rw [← hn]
  unfold present presentNibble
  rw [hw]
  split
  · rw [hs]
  · simp_all

/-- Running k + 1 steps is one step and then k. -/
theorem run_succ (M : Host.Core) (k : Nat) {s t : M.State} (h : M.step s = .next t) :
    M.run (k + 1) s = M.run k t := by
  simp [Host.Core.run, h]

end Sys2Proof.Laws
end

