-- ==== Sys2Proof/Tests/Slice0.lean ====
section
/-! SUPPORT. Tests whose expected values are the spec's: its encodings, its worked examples and vectors
(95_test_vectors.md), and for every statement with hypotheses a witness that meets them. -/

namespace Sys2Proof.Tests

open Sys2Proof.Machine Sys2Proof.Claims

/-! ### Well-formedness: the check refuses an ill-formed term of each kind -/

theorem test_wellFormed_refuses_exact_words :
    (Instr.fallback 0x00E0#16).wellFormed = false ∧
    (Instr.fallback 0x00EE#16).wellFormed = false := by decide

theorem test_wellFormed_refuses_full_families :
    ∀ f : Fin 15, f.val ∈ [1, 2, 3, 4, 5, 6, 7, 9, 10, 11, 12, 13] →
      (Instr.fallback (BitVec.ofNat 16 (4096 * f.val))).wellFormed = false := by decide

theorem test_wellFormed_refuses_recognised_sub_opcodes :
    (Instr.fallback 0x8127#16).wellFormed = false ∧
    (Instr.fallback 0x812F#16).wellFormed = false ∧
    (Instr.fallback 0xE19E#16).wellFormed = false ∧
    (Instr.fallback 0xEFA1#16).wellFormed = false ∧
    (Instr.fallback 0xF265#16).wellFormed = false := by decide

theorem test_wellFormed_accepts_neighbours :
    (Instr.fallback 0x00EF#16).wellFormed = true ∧ (Instr.fallback 0x8128#16).wellFormed = true ∧
    (Instr.fallback 0x812E#16).wellFormed = true ∧ (Instr.fallback 0xE19F#16).wellFormed = true ∧
    (Instr.fallback 0xF066#16).wellFormed = true := by decide

/-! ### Decoding: one word of each row, written out from its pattern in 30_encoding.md R63 and the
family files -/

theorem test_decode_control_transfer :
    decodeWord 0b0000000011101110#16 = .ret ∧
    decodeWord 0b0001001000110100#16 = .jpi 0x234#12 ∧
    decodeWord 0b0010101010111100#16 = .call 0xABC#12 ∧
    decodeWord 0b1011000100100011#16 = .jpo 0x123#12 := by decide

theorem test_decode_conditional_skip :
    decodeWord 0b0011101001000010#16 = .sei 10#4 0x42#8 ∧
    decodeWord 0b0100010100010010#16 = .snei 5#4 0x12#8 ∧
    decodeWord 0b0101000100101111#16 = .se 1#4 2#4 ∧
    decodeWord 0b1001101010110000#16 = .sne 10#4 11#4 ∧
    decodeWord 0b1110000110011110#16 = .skp 1#4 ∧
    decodeWord 0b1110111110100001#16 = .sknp 15#4 := by decide

theorem test_decode_register_arithmetic :
    decodeWord 0b0110101000000101#16 = .ldi 10#4 0x05#8 ∧
    decodeWord 0b0111000011111111#16 = .addByte 0#4 0xFF#8 ∧
    decodeWord 0b1000000100100000#16 = .ld 1#4 2#4 ∧
    decodeWord 0b1000101010110001#16 = .or 10#4 11#4 ∧
    decodeWord 0b1000000100100010#16 = .and 1#4 2#4 ∧
    decodeWord 0b1000111100000011#16 = .xor 15#4 0#4 ∧
    decodeWord 0b1000000000010100#16 = .addReg 0#4 1#4 ∧
    decodeWord 0b1000000100100101#16 = .sub 1#4 2#4 ∧
    decodeWord 0b1000001100000110#16 = .shr 3#4 0#4 ∧
    decodeWord 0b1000000100100111#16 = .subn 1#4 2#4 ∧
    decodeWord 0b1000000100101111#16 = .shl 1#4 2#4 ∧
    decodeWord 0b1100001100001111#16 = .rnd 3#4 0x0F#8 := by decide

theorem test_decode_memory_index :
    decodeWord 0b1010001011110000#16 = .sti 0x2F0#12 ∧
    decodeWord 0b1111001100011110#16 = .addIVx 3#4 ∧
    decodeWord 0b1111000100101001#16 = .ldFVx 1#4 ∧
    decodeWord 0b1111001000110011#16 = .ldBVx 2#4 ∧
    decodeWord 0b1111010101010101#16 = .ldMemVx 5#4 ∧
    decodeWord 0b1111001001100101#16 = .ldVxMem 2#4 := by decide

theorem test_decode_timers_draw_input_fallback :
    decodeWord 0b1111010000000111#16 = .ldVxDt 4#4 ∧
    decodeWord 0b1111000100010101#16 = .ldDtVx 1#4 ∧
    decodeWord 0b1111111000011000#16 = .ldStVx 14#4 ∧
    decodeWord 0b0000000011100000#16 = .cls ∧
    decodeWord 0b1101000100100101#16 = .drw 1#4 2#4 5#4 ∧
    decodeWord 0b1111000100001010#16 = .ldVxK 1#4 ∧
    decodeWord 0b1000000100101110#16 = .fallback 0x812E#16 := by decide

/-- 20_memory.md R40 and R42, E14 and E15: big-endian, an odd trailing byte dropped. -/
theorem test_stream_words :
    wordsOfStream [0x12#8, 0x34#8] = [0x1234#16] ∧
    wordsOfStream [0x00#8, 0xE0#8, 0xFF#8] = [0x00E0#16] := by decide

/-- R42: a partial word is rejected by name. -/
theorem test_decodeBytes_partial : decodeBytes [0x12#8] = .error .partialWord := by decide

theorem test_decodeTableWord : decodeTableWord 16 0x8125 = some (.sub 1#4 2#4) := by decide

/-! ### Output wires: the vectors of 95_test_vectors.md section 2, one step each -/

/-- The state in which `w` is the next word. -/
def presented (w : Word) : State := { State.reset with pending := [w] }

/-- The output wires after the step that decodes `w`. -/
def wires (w : Word) : Option Ports :=
  match step (presented w) with
  | .next t => some t.out
  | .fault _ => none
  | .refused _ => none

theorem test_vectors_control_transfer :
    wires 0x00EE#16 = some ⟨true, 2#6, false, 0#4, false, 0#4, false, 0x0000#16⟩ ∧
    wires 0x0EEE#16 = some ⟨false, 0#6, false, 0#4, false, 0#4, true, 0x0EEE#16⟩ ∧
    wires 0x1000#16 = some ⟨true, 4#6, false, 0#4, false, 0#4, true, 0x0000#16⟩ ∧
    wires 0x2FFF#16 = some ⟨true, 6#6, false, 0#4, false, 0#4, true, 0x0FFF#16⟩ ∧
    wires 0xB123#16 = some ⟨true, 5#6, false, 0#4, false, 0#4, true, 0x0123#16⟩ := by decide

theorem test_vectors_conditional_skip :
    wires 0x3A42#16 = some ⟨true, 8#6, true, 0xA#4, false, 0#4, true, 0x0042#16⟩ ∧
    wires 0x4F00#16 = some ⟨true, 10#6, true, 0xF#4, false, 0#4, true, 0x0000#16⟩ ∧
    wires 0x512F#16 = some ⟨true, 7#6, true, 1#4, true, 2#4, false, 0x0000#16⟩ ∧
    wires 0x9ABF#16 = some ⟨true, 9#6, true, 0xA#4, true, 0xB#4, false, 0x0000#16⟩ ∧
    wires 0xE19E#16 = some ⟨true, 25#6, true, 1#4, false, 0#4, false, 0x0000#16⟩ ∧
    wires 0xE0A1#16 = some ⟨true, 26#6, true, 0#4, false, 0#4, false, 0x0000#16⟩ ∧
    wires 0xE1A2#16 = some ⟨false, 0#6, false, 0#4, false, 0#4, true, 0xE1A2#16⟩ := by decide

theorem test_vectors_register_arithmetic :
    wires 0x6000#16 = some ⟨true, 13#6, true, 0#4, false, 0#4, true, 0x0000#16⟩ ∧
    wires 0x70FF#16 = some ⟨true, 14#6, true, 0#4, false, 0#4, true, 0x00FF#16⟩ ∧
    wires 0x8120#16 = some ⟨true, 12#6, true, 1#4, true, 2#4, false, 0x0000#16⟩ ∧
    wires 0x8AB1#16 = some ⟨true, 16#6, true, 0xA#4, true, 0xB#4, false, 0x0000#16⟩ ∧
    wires 0x8002#16 = some ⟨true, 17#6, true, 0#4, true, 0#4, false, 0x0000#16⟩ ∧
    wires 0x8F03#16 = some ⟨true, 18#6, true, 0xF#4, true, 0#4, false, 0x0000#16⟩ ∧
    wires 0x8014#16 = some ⟨true, 14#6, true, 0#4, true, 1#4, false, 0x0000#16⟩ ∧
    wires 0x8125#16 = some ⟨true, 19#6, true, 1#4, true, 2#4, false, 0x0000#16⟩ ∧
    wires 0x8306#16 = some ⟨true, 20#6, true, 3#4, true, 0#4, false, 0x0000#16⟩ ∧
    wires 0x8127#16 = some ⟨true, 21#6, true, 1#4, true, 2#4, false, 0x0000#16⟩ ∧
    wires 0x812F#16 = some ⟨true, 22#6, true, 1#4, true, 2#4, false, 0x0000#16⟩ ∧
    wires 0x812E#16 = some ⟨false, 0#6, false, 0#4, false, 0#4, true, 0x812E#16⟩ ∧
    wires 0xC0FF#16 = some ⟨true, 23#6, true, 0#4, false, 0#4, true, 0x00FF#16⟩ := by decide

theorem test_vectors_memory_index :
    wires 0xA2F0#16 = some ⟨true, 11#6, false, 0#4, false, 0#4, true, 0x02F0#16⟩ ∧
    wires 0xF31E#16 = some ⟨true, 31#6, true, 3#4, false, 0#4, false, 0x0000#16⟩ ∧
    wires 0xF029#16 = some ⟨true, 32#6, true, 0#4, false, 0#4, false, 0x0000#16⟩ ∧
    wires 0xF233#16 = some ⟨true, 33#6, true, 2#4, false, 0#4, false, 0x0000#16⟩ ∧
    wires 0xF555#16 = some ⟨true, 34#6, true, 5#4, false, 0#4, false, 0x0000#16⟩ ∧
    wires 0xF265#16 = some ⟨true, 35#6, true, 2#4, false, 0#4, false, 0x0000#16⟩ ∧
    wires 0xF066#16 = some ⟨false, 0#6, false, 0#4, false, 0#4, true, 0xF066#16⟩ := by decide

theorem test_vectors_timers_draw_input :
    wires 0xF407#16 = some ⟨true, 27#6, true, 4#4, false, 0#4, false, 0x0000#16⟩ ∧
    wires 0xF015#16 = some ⟨true, 29#6, true, 0#4, false, 0#4, false, 0x0000#16⟩ ∧
    wires 0xFE18#16 = some ⟨true, 30#6, true, 0xE#4, false, 0#4, false, 0x0000#16⟩ ∧
    wires 0x00E0#16 = some ⟨true, 1#6, false, 0#4, false, 0#4, false, 0x0000#16⟩ ∧
    wires 0xD120#16 = some ⟨true, 24#6, true, 1#4, true, 2#4, true, 0x0000#16⟩ ∧
    wires 0xDFFF#16 = some ⟨true, 24#6, true, 0xF#4, true, 0xF#4, true, 0x000F#16⟩ ∧
    wires 0xF10A#16 = some ⟨true, 28#6, true, 1#4, false, 0#4, false, 0x0000#16⟩ ∧
    wires 0x0000#16 = some ⟨false, 0#6, false, 0#4, false, 0#4, true, 0x0000#16⟩ := by decide

/-- V-NX, rows 0x1234 and 0xF10A. -/
theorem test_vectors_nibble_extractor :
    [0#2, 1#2, 2#2, 3#2].map (nib 0x1234#16) = [1#4, 2#4, 3#4, 4#4] ∧
    [0#2, 1#2, 2#2, 3#2].map (nib 0xF10A#16) = [0xF#4, 1#4, 0#4, 0xA#4] := by decide

/-- The notation column of the vectors, R82. -/
theorem test_spell :
    spell 0x512F#16 = "SE V1 V2".toList ∧ spell 0xC30F#16 = "RND V3 0xf".toList ∧
    spell 0x00EF#16 = ".word 0x00ef".toList := by decide

/-- With no word pending a step from reset leaves the right outputs as they are (R44, R190). -/
theorem test_step_from_reset : ∃ t, step State.reset = .next t ∧ t = State.reset :=
  ⟨_, rfl, rfl⟩

/-- `withFetchWord` makes the very next step decode the word. -/
theorem test_withFetchWord : ∃ t, step (State.reset.withFetchWord 16 0x2ABC) = .next t ∧
    t.word = 0x2ABC#16 ∧ t.out.op = 6#6 ∧ t.out.imm = 0x0ABC#16 := ⟨_, rfl, rfl, rfl, rfl⟩

/-! ### Witnesses: a concrete state and operands that meet each statement's hypotheses -/

/-- The two blocks' inputs as the environment presents them next. -/
def presentedBoth (w v : Word) (i : NibIdx) : State :=
  { State.reset with pending := [w], nxPending := [(v, i)] }

theorem witness_StepRunsTheDecodedInstruction :
    ((presented 0x1234#16).pending = 0x1234#16 :: [] ∧
      decodeBytes [(0x1234#16 : Word).extractLsb 15 8, (0x1234#16 : Word).extractLsb 7 0] =
        .ok (.jpi 0x234#12, [])) ∧
    (State.reset.pending = [] ∧
      decodeBytes [State.reset.word.extractLsb 15 8, State.reset.word.extractLsb 7 0] =
        .ok (.fallback 0x0000#16, [])) := by decide

theorem witness_FetchWordRunsNext : decodeTableWord 16 0xFFFF = some (.fallback 0xFFFF#16) := by
  decide

theorem witness_EveryInstructionTouchesOnlyTheOutputs :
    ∃ t t', exec (.drw 15#4 0#4 15#4) (presentedBoth 0x1234#16 0xABCD#16 2#2) = .next t ∧
      exec (.drw 15#4 0#4 15#4) State.reset = .next t' := ⟨_, _, rfl, rfl⟩

theorem witness_ControlTransferWords :
    ([0x00EE#16, 0x0000#16, 0x0FFF#16, 0x1000#16, 0x1FFF#16, 0x2000#16, 0xBFFF#16].all fun w =>
      (presented w).pending == w :: []) = true ∧
    (0x0FFF#16 &&& 0xF000#16 = 0x0000#16 ∧ 0x0FFF#16 ≠ 0x00EE#16 ∧ 0x0FFF#16 ≠ 0x00E0#16) ∧
    (0x0000#16 &&& 0xF000#16 = 0x0000#16 ∧ 0x0000#16 ≠ 0x00EE#16 ∧ 0x0000#16 ≠ 0x00E0#16) ∧
    0x1FFF#16 &&& 0xF000#16 = 0x1000#16 ∧ 0x2000#16 &&& 0xF000#16 = 0x2000#16 ∧
    0xBFFF#16 &&& 0xF000#16 = 0xB000#16 := by decide

theorem witness_ConditionalSkipWords :
    ([0x3000#16, 0x4FFF#16, 0x5FFF#16, 0x9000#16, 0xEF9E#16, 0xE0A1#16, 0xE000#16, 0xEFFF#16].all fun w =>
      (presented w).pending == w :: []) = true ∧
    0x3000#16 &&& 0xF000#16 = 0x3000#16 ∧ 0x4FFF#16 &&& 0xF000#16 = 0x4000#16 ∧
    0x5FFF#16 &&& 0xF000#16 = 0x5000#16 ∧ 0x9000#16 &&& 0xF000#16 = 0x9000#16 ∧
    0xEF9E#16 &&& 0xF0FF#16 = 0xE09E#16 ∧ 0xE0A1#16 &&& 0xF0FF#16 = 0xE0A1#16 ∧
    (0xEFFF#16 &&& 0xF000#16 = 0xE000#16 ∧ 0xEFFF#16 &&& 0x00FF#16 ≠ 0x009E#16 ∧
      0xEFFF#16 &&& 0x00FF#16 ≠ 0x00A1#16) := by decide

theorem witness_RegisterArithmeticWords :
    ([0x6FFF#16, 0x7000#16, 0x8FF0#16, 0x8001#16, 0x8FF2#16, 0x8003#16, 0x8FF4#16, 0x8005#16,
      0x8FF6#16, 0x8007#16, 0x8FFF#16, 0xC000#16, 0x812E#16].all fun w =>
      (presented w).pending == w :: []) = true ∧
    0x6FFF#16 &&& 0xF000#16 = 0x6000#16 ∧ 0x7000#16 &&& 0xF000#16 = 0x7000#16 ∧
    0x8FF0#16 &&& 0xF00F#16 = 0x8000#16 ∧ 0x8001#16 &&& 0xF00F#16 = 0x8001#16 ∧
    0x8FF2#16 &&& 0xF00F#16 = 0x8002#16 ∧ 0x8003#16 &&& 0xF00F#16 = 0x8003#16 ∧
    0x8FF4#16 &&& 0xF00F#16 = 0x8004#16 ∧ 0x8005#16 &&& 0xF00F#16 = 0x8005#16 ∧
    0x8FF6#16 &&& 0xF00F#16 = 0x8006#16 ∧ 0x8007#16 &&& 0xF00F#16 = 0x8007#16 ∧
    0x8FFF#16 &&& 0xF00F#16 = 0x800F#16 ∧ 0xC000#16 &&& 0xF000#16 = 0xC000#16 := by decide

theorem witness_MemoryIndexWords :
    ([0xAFFF#16, 0xF01E#16, 0xFF29#16, 0xF033#16, 0xFF55#16, 0xF065#16, 0xF066#16].all fun w =>
      (presented w).pending == w :: []) = true ∧
    0xAFFF#16 &&& 0xF000#16 = 0xA000#16 ∧ 0xF01E#16 &&& 0xF0FF#16 = 0xF01E#16 ∧
    0xFF29#16 &&& 0xF0FF#16 = 0xF029#16 ∧ 0xF033#16 &&& 0xF0FF#16 = 0xF033#16 ∧
    0xFF55#16 &&& 0xF0FF#16 = 0xF055#16 ∧ 0xF065#16 &&& 0xF0FF#16 = 0xF065#16 := by decide

theorem witness_TimerWords :
    ([0xFF07#16, 0xF008#16, 0xF015#16, 0xFF18#16].all fun w =>
      (presented w).pending == w :: []) = true ∧
    0xFF07#16 &&& 0xF0FF#16 = 0xF007#16 ∧ 0xF015#16 &&& 0xF0FF#16 = 0xF015#16 ∧
    0xFF18#16 &&& 0xF0FF#16 = 0xF018#16 := by decide

theorem witness_DrawInputWords :
    ([0x00E0#16, 0x00E1#16, 0x00ED#16, 0x01E0#16, 0x00EE#16, 0xDFFF#16, 0xF00A#16].all fun w =>
      (presented w).pending == w :: []) = true ∧
    (0x00E1#16 ≤ 0x00E1#16 ∧ 0x00E1#16 ≤ 0x00ED#16) ∧
    (0x00E1#16 ≤ 0x00ED#16 ∧ 0x00ED#16 ≤ 0x00ED#16) ∧
    0xDFFF#16 &&& 0xF000#16 = 0xD000#16 ∧ 0xF00A#16 &&& 0xF0FF#16 = 0xF00A#16 := by decide

/-- The last clause of DrawInputWords: a step after which vx, vy and imm are all present, imm being 0. -/
theorem witness_DrawInputWords_all_present :
    ∃ t, step (presented 0xDFF0#16) = .next t ∧ t.out.vxValid = true ∧ t.out.vyValid = true ∧
      t.out.immValid = true ∧ t.out.imm = 0#16 := ⟨_, rfl, rfl, rfl, rfl, rfl⟩

theorem witness_FallbackWords :
    (presented 0xF0FF#16).pending = 0xF0FF#16 :: [] ∧
    (∀ r ∈ opcodeTable, r.matches 0xF0FF#16 = false) ∧
    (presented 0x0000#16).pending = 0x0000#16 :: [] ∧ ∃ t, step State.reset = .next t :=
  ⟨rfl, by decide, rfl, _, rfl⟩

theorem witness_ShlIsSubOpcodeF :
    (presented 0x8FFE#16).pending = 0x8FFE#16 :: [] ∧ 0x8FFE#16 &&& 0xF00F#16 = 0x800E#16 ∧
    ∃ t, step (presented 0x800F#16) = .next t := ⟨rfl, by decide, _, rfl⟩

theorem witness_FamiliesFiveAndNineIgnoreNibbleThree :
    (∃ t t', step (presented 0x5120#16) = .next t ∧ step (presented 0x512F#16) = .next t' ∧
      t.word.extractLsb 15 12 = 5#4 ∧ t.word.extractLsb 15 4 = t'.word.extractLsb 15 4) ∧
    (∃ t t', step (presented 0x9AB0#16) = .next t ∧ step (presented 0x9ABF#16) = .next t' ∧
      t.word.extractLsb 15 12 = 9#4 ∧ t.word.extractLsb 15 4 = t'.word.extractLsb 15 4) :=
  ⟨⟨_, _, rfl, rfl, rfl, rfl⟩, ⟨_, _, rfl, rfl, rfl, rfl⟩⟩

/-- EveryStepSettlesTheOutputs, OutputsAgreeWithTheOpcodeTable, JpAndAddiAreNeverDriven and the third
clause of WireEncodingIsABijection ask only that a step answers. -/
theorem witness_step_answers : ∃ t, step (presentedBoth 0x8014#16 0x1234#16 3#2) = .next t :=
  ⟨_, rfl⟩

theorem witness_PatternsAreDisjoint :
    ((⟨.JPI, .a, 0x1000#16, 0xF000#16⟩ : OpRow) ∈ opcodeTable ∧
      OpRow.matches ⟨.JPI, .a, 0x1000#16, 0xF000#16⟩ 0x1FFF#16 = true) ∧
    ((⟨.CLS, .exact, 0x00E0#16, 0xFFFF#16⟩ : OpRow) ∈ opcodeTable ∧
      OpRow.matches ⟨.CLS, .exact, 0x00E0#16, 0xFFFF#16⟩ 0x00E0#16 = true ∧
      (0x00E0#16 : Word).extractLsb 15 12 = 0#4) := by decide

theorem witness_UnmatchedWordsAreTheFourSets :
    ([0x0000#16, 0x0FFF#16, 0x8008#16, 0x8FFE#16, 0xE000#16, 0xEFFF#16, 0xF000#16, 0xFFFF#16].all
      fun w => (presented w).pending == w :: [] && unmatched w) = true := by decide

/-- One word for each clause of the shapes of R64: the wire condition holds after the step. -/
theorem witness_OperandShapeOfEveryTag :
    (∃ t, step (presented 0x00E0#16) = .next t ∧ t.out.op ∈ [1#6, 2#6]) ∧
    (∃ t, step (presented 0x1000#16) = .next t ∧ t.out.op ∈ [4#6, 6#6, 11#6, 5#6]) ∧
    (∃ t, step (presented 0x7000#16) = .next t ∧ t.out.op = 14#6 ∧
      t.word.extractLsb 15 12 = 7#4) ∧
    (∃ t, step (presented 0x8FF4#16) = .next t ∧ t.out.op = 14#6 ∧
      t.word.extractLsb 15 12 = 8#4) ∧
    (∃ t, step (presented 0xD000#16) = .next t ∧ t.out.op = 24#6) ∧
    (∃ t, step (presented 0xE0A1#16) = .next t ∧
      t.out.op ∈ [25#6, 26#6, 27#6, 28#6, 29#6, 30#6, 31#6, 32#6, 33#6, 34#6, 35#6]) ∧
    (∃ t, step (presented 0x0000#16) = .next t ∧ t.out.op = 0#6) :=
  ⟨⟨_, rfl, by decide⟩, ⟨_, rfl, by decide⟩, ⟨_, rfl, rfl, rfl⟩, ⟨_, rfl, rfl, rfl⟩, ⟨_, rfl, rfl⟩,
    ⟨_, rfl, by decide⟩, ⟨_, rfl, rfl⟩⟩

/-- The four boundary cases of V-PR4: the same word, a family-5 pair, a family-9 pair, and two words of
different families that agree in their low bits. -/
theorem witness_OutputsIdentifyTheWord :
    ([0x1234#16, 0x5120#16, 0x512F#16, 0x9AB0#16, 0x9ABF#16, 0x2234#16].all fun w =>
      (wires w).isSome) = true := by decide

/-- Every clause of R27: all fields present (0xD120), no operator, `vx` or `vy` (0x0000), no immediate
(0x00E0). -/
theorem witness_WiresEncodeTheRecord :
    refDecode 0xD120#16 = ⟨some .DRW, some 1#4, some 2#4, some 0x0000#16⟩ ∧
    refDecode 0x0000#16 = ⟨none, none, none, some 0x0000#16⟩ ∧
    refDecode 0x00E0#16 = ⟨some .CLS, none, none, none⟩ ∧
    ([0xD120#16, 0x0000#16, 0x00E0#16].all fun w => (wires w).isSome) = true := by decide

theorem witness_WireEncodingIsABijection :
    legalPorts ⟨true, 35#6, true, 0#4, false, 0#4, false, 0x0000#16⟩ = true ∧
    legalPorts ⟨false, 0#6, false, 0#4, false, 0#4, true, 0xFFFF#16⟩ = true ∧
    legalPorts ⟨true, 36#6, false, 0#4, false, 0#4, false, 0x0000#16⟩ = false ∧
    legalPorts ⟨true, 1#6, false, 1#4, false, 0#4, false, 0x0000#16⟩ = false := by decide

theorem witness_TagCodesAreOneToThirtyFive : tagCode .ADD = tagCode .ADD ∧ tagCode .ADD ≠ tagCode .ADDI := by decide

/-- The same word, once waiting and once already on the input of a state that decoded another. -/
theorem witness_OutputsDependOnTheWordAlone :
    ∃ t t', step (presentedBoth 0x812F#16 0x1234#16 1#2) = .next t ∧
      step { State.reset with word := 0x812F#16 } = .next t' ∧
      (presentedBoth 0x812F#16 0x1234#16 1#2).pending.headD State.reset.word = 0x812F#16 :=
  ⟨_, _, rfl, rfl, rfl⟩

theorem witness_ExtractorDependsOnItsOwnInputsAlone :
    ∃ t t', step (presentedBoth 0x0000#16 0x1234#16 1#2) = .next t ∧
      step (presentedBoth 0xFFFF#16 0x1234#16 1#2) = .next t' ∧
      (presentedBoth 0x0000#16 0x1234#16 1#2).nxPending =
        (presentedBoth 0xFFFF#16 0x1234#16 1#2).nxPending := ⟨_, _, rfl, rfl, rfl⟩

/-- A state whose outputs are stale: the step changes them, and steps after it do not. -/
theorem witness_DecodingAgainChangesNothing :
    ∃ s t : State, s.pending = [] ∧ s.nxPending = [] ∧ step s = .next t ∧ t ≠ s :=
  ⟨{ State.reset with word := 0x00E0#16 }, _, rfl, rfl, rfl, by decide⟩

/-- P3 of 95_test_vectors.md, 17 bytes: its first and its last whole word. -/
def streamP3 : List Byte :=
  [0x80#8, 0x14#8, 0x81#8, 0x25#8, 0x81#8, 0x2E#8, 0x81#8, 0x2F#8, 0x51#8, 0x21#8, 0x01#8, 0x23#8,
   0xE0#8, 0xA1#8, 0xC3#8, 0x0F#8, 0xAB#8]

/-- StreamWordsAreBigEndianPairs and StreamIsDecodedInOrder. -/
theorem witness_stream_bounds :
    2 * 0 + 1 < streamP3.length ∧ 2 * 7 + 1 < streamP3.length ∧ ¬ 2 * 8 + 1 < streamP3.length := by
  decide

/-- P3's words, its 17th byte dropped. -/
theorem test_stream_P3 : wordsOfStream streamP3 =
    [0x8014#16, 0x8125#16, 0x812E#16, 0x812F#16, 0x5121#16, 0x0123#16, 0xE0A1#16, 0xC30F#16] := by
  decide

theorem witness_StepTakesTheNextInputs :
    (State.reset.pending = [] ∧ State.reset.nxPending = [] ∧ ∃ t, step State.reset = .next t) ∧
    ((presentedBoth 0x1234#16 0xABCD#16 3#2).pending = 0x1234#16 :: [] ∧
      (presentedBoth 0x1234#16 0xABCD#16 3#2).nxPending = (0xABCD#16, 3#2) :: [] ∧
      ∃ t, step (presentedBoth 0x1234#16 0xABCD#16 3#2) = .next t) :=
  ⟨⟨rfl, rfl, _, rfl⟩, ⟨rfl, rfl, _, rfl⟩⟩

/-- All four indices. -/
theorem witness_ExtractorDrivesTheSelectedNibble :
    (∃ t, step (presentedBoth 0x0000#16 0xABCD#16 0#2) = .next t ∧ t.nx.idx = 0#2) ∧
    (∃ t, step (presentedBoth 0x0000#16 0xABCD#16 1#2) = .next t ∧ t.nx.idx = 1#2) ∧
    (∃ t, step (presentedBoth 0x0000#16 0xABCD#16 2#2) = .next t ∧ t.nx.idx = 2#2) ∧
    (∃ t, step (presentedBoth 0x0000#16 0xABCD#16 3#2) = .next t ∧ t.nx.idx = 3#2) :=
  ⟨⟨_, rfl, rfl⟩, ⟨_, rfl, rfl⟩, ⟨_, rfl, rfl⟩, ⟨_, rfl, rfl⟩⟩

theorem witness_SampleAfterSettlingIsTheDecode :
    (∃ t, step (presented 0x1234#16) = .next t) ∧ Config.tPD ≤ Config.tPD := ⟨⟨_, rfl⟩, le_rfl⟩

/-- DecodeOfEncodeIsTheInstruction and EncodingsAreExactlyTheWords. -/
theorem witness_wellFormed :
    (Instr.drw 15#4 15#4 15#4).wellFormed = true ∧ (Instr.se 0#4 15#4).wellFormed = true ∧
    (Instr.fallback 0x8008#16).wellFormed = true := by decide

/-- The 16 words of SE V1 V2. -/
theorem test_encodings_se : 0x5120#16 ∈ encodings (.se 1#4 2#4) ∧ 0x512F#16 ∈ encodings (.se 1#4 2#4) ∧
    0x5130#16 ∉ encodings (.se 1#4 2#4) := by decide

end Sys2Proof.Tests
end

section
/-! PROOFS. The port encoding and the absence of history, 10_state.md sections 1 and 5: the tag codes
(R24, R25), the wires of a record (R27, R28), and that the outputs follow the word alone (R34). -/

namespace Sys2Proof.Proofs

open Sys2Proof.Machine Sys2Proof.Laws

/-! ### The meanings against the reference decode of R76 -/

/-- Step 1 of R66: the two exact words are of family 0. -/
theorem ne_exact_of_family {w : Word} (h : fieldF w ≠ 0#4) : w ≠ 0x00E0#16 ∧ w ≠ 0x00EE#16 :=
  ⟨fun hw => h (hw ▸ rfl), fun hw => h (hw ▸ rfl)⟩

/-- R76: family 0 has the raw record besides the two exact words. -/
theorem refDecode_family0 {w : Word} (hF : fieldF w = 0x0#4) (h1 : w ≠ 0x00E0#16)
    (h2 : w ≠ 0x00EE#16) : refDecode w = recordRaw w := by
  simp only [refDecode, if_neg h1, if_neg h2, ← fieldF_eq_slice, hF]
  rfl

/-- R76, family 8: the table's tag with both registers, or the raw word. -/
theorem refDecode_family8 {w : Word} (hF : fieldF w = 0x8#4) :
    refDecode w = (refFamily8.lookup (fieldN w)).elim (recordRaw w)
      fun t => recordXY t (fieldX w) (fieldY w) := by
  obtain ⟨h1, h2⟩ := ne_exact_of_family (w := w) (by simp [hF])
  simp only [refDecode, if_neg h1, if_neg h2, ← fieldF_eq_slice, hF, ← fieldN_eq_slice]
  cases refFamily8.lookup (fieldN w) <;> rfl

/-- R76, family 14: the table's tag with `vx`, or the raw word. -/
theorem refDecode_familyE {w : Word} (hF : fieldF w = 0xE#4) :
    refDecode w = (refFamilyE.lookup (fieldKK w)).elim (recordRaw w)
      fun t => recordX t (fieldX w) := by
  obtain ⟨h1, h2⟩ := ne_exact_of_family (w := w) (by simp [hF])
  simp only [refDecode, if_neg h1, if_neg h2, ← fieldF_eq_slice, hF, ← fieldKK_eq_slice]
  cases refFamilyE.lookup (fieldKK w) <;> rfl

/-- R76, family 15: the table's tag with `vx`, or the raw word. -/
theorem refDecode_familyF {w : Word} (hF : fieldF w = 0xF#4) :
    refDecode w = (refFamilyF.lookup (fieldKK w)).elim (recordRaw w)
      fun t => recordX t (fieldX w) := by
  obtain ⟨h1, h2⟩ := ne_exact_of_family (w := w) (by simp [hF])
  simp only [refDecode, if_neg h1, if_neg h2, ← fieldF_eq_slice, hF, ← fieldKK_eq_slice]
  cases refFamilyF.lookup (fieldKK w) <;> rfl

theorem exec_decodeFamily8 {w : Word} (hF : fieldF w = 0x8#4) (s : State) :
    exec (decodeFamily8 w) s = drive (refDecode w) s := by
  rw [refDecode_family8 hF]
  unfold decodeFamily8
  split
  case h_10 =>
    have hnone : refFamily8.lookup (fieldN w) = none := by
      simp_all [List.lookup_eq_none_iff, refFamily8]
    rw [hnone]
    rfl
  all_goals
    rename_i hsel
    rw [hsel]
    rfl

theorem exec_decodeFamilyE {w : Word} (hF : fieldF w = 0xE#4) (s : State) :
    exec (decodeFamilyE w) s = drive (refDecode w) s := by
  rw [refDecode_familyE hF]
  unfold decodeFamilyE
  split
  case h_3 =>
    have hnone : refFamilyE.lookup (fieldKK w) = none := by
      simp_all [List.lookup_eq_none_iff, refFamilyE]
    rw [hnone]
    rfl
  all_goals
    rename_i hsel
    rw [hsel]
    rfl

theorem exec_decodeFamilyF {w : Word} (hF : fieldF w = 0xF#4) (s : State) :
    exec (decodeFamilyF w) s = drive (refDecode w) s := by
  rw [refDecode_familyF hF]
  unfold decodeFamilyF
  split
  case h_10 =>
    have hnone : refFamilyF.lookup (fieldKK w) = none := by
      simp_all [List.lookup_eq_none_iff, refFamilyF]
    rw [hnone]
    rfl
  all_goals
    rename_i hsel
    rw [hsel]
    rfl

/-- Step 2 of R66 selects the meaning that drives the reference record. -/
theorem exec_decodeFamily {w : Word} (h1 : w ≠ 0x00E0#16) (h2 : w ≠ 0x00EE#16) (s : State) :
    exec (decodeFamily w) s = drive (refDecode w) s := by
  unfold decodeFamily
  split
  case h_8 hF => exact exec_decodeFamily8 hF s
  case h_14 hF => exact exec_decodeFamilyE hF s
  case h_15 hF => exact exec_decodeFamilyF hF s
  case h_16 =>
    have hF : fieldF w = 0x0#4 := by apply nibble_eq_zero <;> assumption
    rw [refDecode_family0 hF h1 h2]
    rfl
  all_goals
    rename_i hF
    simp only [refDecode, if_neg h1, if_neg h2, ← fieldF_eq_slice, hF]
    rfl

/-- Running the decoded instruction drives the record of R76, whatever the state and the word. -/
theorem exec_decodeWord (w : Word) (s : State) :
    exec (decodeWord w) s = drive (refDecode w) s := by
  unfold decodeWord
  split
  case isTrue h => subst h; rfl
  case isFalse h1 =>
    split
    case isTrue h => subst h; rfl
    case isFalse h2 => exact exec_decodeFamily h1 h2 s

/-- R20: after a step the outputs encode the reference decode of the word now on the input. -/
theorem step_out {s t : State} (h : step s = .next t) : t.out = portsOf (refDecode t.word) := by
  rw [step_eq_exec, exec_decodeWord, drive_next_iff] at h
  subst h
  rfl

/-! ### The wires of one field, R27 -/

/-- A present field's value is on its bus, with valid 1; an absent field's wires are all 0. -/
theorem field_wires {n : Nat} (field : Option (BitVec n)) :
    (∀ v, field = some v → validWire field = true ∧ fieldBus field = v) ∧
      (field = none → validWire field = false ∧ fieldBus field = 0#n) :=
  ⟨by rintro v rfl; simp, by rintro rfl; simp⟩

/-- A present operator's code is on the `op` bus, with valid 1; an absent one's wires are all 0. -/
theorem op_wires (op : Option Tag) :
    (∀ tag, op = some tag → opBus op = tagCode tag ∧ opValidWire op = true) ∧
      (op = none → opBus op = 0#6 ∧ opValidWire op = false) :=
  ⟨by rintro tag rfl; simp, by rintro rfl; simp⟩

/-- No tag has the code NONE. -/
theorem tagCode_ne_zero (t : Tag) : tagCode t ≠ 0#6 := by
  intro h
  have := (tagCode_range t).1
  simp [h] at this

/-- The `op` bus carries a code below 36. -/
theorem opBus_lt (op : Option Tag) : (opBus op).toNat < 36 := by
  cases op with
  | none => simp
  | some t => exact Nat.lt_succ_of_le (tagCode_range t).2

/-- `op_valid` says that the `op` bus is not 0. -/
theorem opValidWire_eq (op : Option Tag) : opValidWire op = (opBus op != 0#6) := by
  cases op with
  | none => rfl
  | some t => simp [tagCode_ne_zero t]

/-- An invalid wire comes with a bus of 0. -/
theorem validWire_or_fieldBus_eq_zero {n : Nat} (field : Option (BitVec n)) :
    (validWire field || fieldBus field == 0#n) = true := by
  cases field <;> simp

/-! ### Reading the wires back, R28 -/

/-- What a consumer reads from a field's wires is the field. -/
theorem read_field_wires {n : Nat} (field : Option (BitVec n)) :
    (if validWire field then some (fieldBus field) else none) = field := by
  cases field <;> simp

/-- What a consumer reads from the operator's wires is the operator. -/
theorem read_op_wires (op : Option Tag) :
    (if opValidWire op then tagOfCode (opBus op) else none) = op := by
  cases op <;> simp

theorem recordOf_portsOf (d : Decoded) : recordOf (portsOf d) = d := by
  obtain ⟨op, vx, vy, imm⟩ := d
  exact (Decoded.mk.injEq ..).mpr
    ⟨read_op_wires op, read_field_wires vx, read_field_wires vy, read_field_wires imm⟩

theorem legalPorts_portsOf (d : Decoded) : legalPorts (portsOf d) = true := by
  simp only [legalPorts, portsOf, ← opValidWire_eq, opBus_lt, validWire_or_fieldBus_eq_zero]
  simp

/-- A valid wire and its bus, zero when invalid, encode what a consumer reads from them. -/
theorem wires_read_field {n : Nat} {valid : Bool} {bus : BitVec n} (h : (valid || bus == 0#n) = true) :
    validWire (if valid then some bus else none) = valid ∧
      fieldBus (if valid then some bus else none) = bus := by
  cases valid with
  | true => simp
  | false =>
    have hbus : bus = 0#n := by simpa using h
    simp [hbus]

/-- `op_valid` and a code below 36 encode the operator a consumer reads from them. -/
theorem wires_read_op {valid : Bool} {code : OpCode} (hv : valid = (code != 0#6))
    (hc : code.toNat < 36) :
    opValidWire (if valid then tagOfCode code else none) = valid ∧
      opBus (if valid then tagOfCode code else none) = code := by
  by_cases h0 : code = 0#6
  · simp [hv, h0]
  · obtain ⟨t, ht, hcode⟩ := tagOfCode_of_range code h0 hc
    simp [hv, h0, ht, hcode]

theorem portsOf_recordOf {p : Ports} (h : legalPorts p = true) : portsOf (recordOf p) = p := by
  simp only [legalPorts, Bool.and_eq_true, beq_iff_eq, decide_eq_true_eq] at h
  obtain ⟨⟨⟨⟨hv, hc⟩, hx⟩, hy⟩, hi⟩ := h
  obtain ⟨hop, hcode⟩ := wires_read_op hv hc
  simp only [portsOf, recordOf, hop, hcode, wires_read_field hx, wires_read_field hy,
    wires_read_field hi]

/-! ### The obligations -/

/-- Settles O31: the outputs after a step are the wires of the reference record, taken field by field. -/
theorem wiresEncodeTheRecord : Obligations.WiresEncodeTheRecord := by
  rintro s t d h rfl
  rw [step_out h]
  obtain ⟨hop, hopNone⟩ := op_wires (refDecode t.word).op
  obtain ⟨hx, hxNone⟩ := field_wires (refDecode t.word).vx
  obtain ⟨hy, hyNone⟩ := field_wires (refDecode t.word).vy
  obtain ⟨hi, hiNone⟩ := field_wires (refDecode t.word).imm
  exact ⟨hop, hopNone, opValidWire_eq _, hx, hxNone, hy, hyNone, hi, hiNone⟩

/-- Settles O33: reading inverts driving on every record, driving inverts reading on every legal wire
value, and a step drives the wires of a record. -/
theorem wireEncodingIsABijection : Obligations.WireEncodingIsABijection :=
  ⟨recordOf_portsOf, fun _ => portsOf_recordOf, fun _ _ h => step_out h ▸ legalPorts_portsOf _⟩

/-- Settles O34: the outputs are a function of the word on the input, which is the next pending word or
the one already there. -/
theorem outputsDependOnTheWordAlone : Obligations.OutputsDependOnTheWordAlone := by
  intro s t s' t' h h' hword
  have hinput : t.word = t'.word := by rw [(step_inputs h).1, hword, (step_inputs h').1]
  rw [step_out h, step_out h', hinput]

/-- Settles O32: a tag is listed because its code is looked up in the list, and the look-up makes the
codes injective. -/
theorem tagCodesAreOneToThirtyFive : Obligations.TagCodesAreOneToThirtyFive :=
  ⟨fun t => List.mem_of_find?_eq_some (tagOfCode_tagCode t), rfl, fun _ _ => tagCode_inj⟩

end Sys2Proof.Proofs
end

section
/-! PROOFS. The instruction stream, 20_memory.md: words from bytes (R40, R42), the order in which they are
decoded (R47), and that decoding changes nothing (R44). -/

namespace Sys2Proof.Proofs

open Sys2Proof.Machine Sys2Proof.Laws

/-! ### Words from bytes, R40 and R42 -/

theorem length_wordsOfStream : ∀ bytes : List Byte,
    (wordsOfStream bytes).length = bytes.length / 2
  | [] => rfl
  | [_] => by simp
  | _ :: _ :: rest => by
    simp only [wordsOfStream_cons, List.length_cons, length_wordsOfStream rest]
    omega

/-- The word at index `k` of a stream is its bytes `2k` and `2k + 1`. -/
theorem wordsOfStream_getElem? (bytes : List Byte) (k : Nat) (h : 2 * k + 1 < bytes.length) :
    (wordsOfStream bytes)[k]? = some (bytes[2 * k] ++ bytes[2 * k + 1]) := by
  induction k generalizing bytes with
  | zero =>
    match bytes, h with
    | _ :: _ :: _, _ => rfl
  | succ k ih =>
    match bytes, h with
    | _ :: _ :: rest, h =>
      have hrest : 2 * k + 1 < rest.length := by simp only [List.length_cons] at h; omega
      exact ih rest hrest

/-- R42: fewer than two bytes are a partial word. -/
theorem decodeBytes_error_iff (bytes : List Byte) :
    decodeBytes bytes = .error .partialWord ↔ bytes.length < 2 := by
  match bytes with
  | [] => simp
  | [_] => simp
  | _ :: _ :: _ => simp

/-! ### Runs of steps -/

/-- One step: the inputs presented, the wires of the reference record of the word then on the input. -/
theorem step_eq_next (s : State) :
    step s = .next { present s with out := portsOf (refDecode (s.pending.headD s.word)) } := by
  rw [step_eq_exec, exec_decodeWord, present_word]
  rfl

/-- R20: a step leaves both blocks' outputs settled on their inputs. -/
theorem step_settles {s t : State} (h : step s = .next t) : Settled t := by
  obtain ⟨-, -, hnx, -⟩ := step_inputs h
  exact ⟨step_out h, hnx ▸ presentNibble_nx_nib s⟩

/-- R44: a settled state with nothing pending steps to itself. -/
theorem step_settled_eq_self {t : State} (hp : t.pending = []) (hq : t.nxPending = [])
    (ht : Settled t) : step t = .next t := by
  obtain ⟨hout, hnib⟩ := ht
  rw [step_eq_next, present_eq_self hp hq hnib, hp, List.headD_nil, ← hout]

/-- A state that steps to itself stays there for any number of steps. -/
theorem run_eq_self {M : Host.Core} {t : M.State} (h : M.step t = .next t) (n : Nat) :
    M.run n t = .next t := by
  induction n with
  | zero => rfl
  | succ n ih => rw [run_succ M n h, ih]

/-- R47: the word at index `k` of the pending list is decoded by the step after `k` others. -/
theorem run_decodes_pending {k : Nat} {s : State} {w : Word} (hw : s.pending[k]? = some w) :
    ∃ t : State, core.run (k + 1) s = .next t ∧ t.word = w ∧ t.out = portsOf (refDecode w) := by
  induction k generalizing s with
  | zero =>
    obtain ⟨t, hstep⟩ : ∃ t, step s = .next t := ⟨_, step_eq_next s⟩
    obtain ⟨hinput, -, -, -⟩ := step_inputs hstep
    have hword : t.word = w := by
      rw [hinput, List.headD_eq_head?_getD, List.head?_eq_getElem?, hw, Option.getD_some]
    exact ⟨t, run_succ core 0 hstep, hword, hword ▸ step_out hstep⟩
  | succ k ih =>
    obtain ⟨u, hstep⟩ : ∃ u, step s = .next u := ⟨_, step_eq_next s⟩
    obtain ⟨-, htail, -, -⟩ := step_inputs hstep
    have hu : u.pending[k]? = some w := by rw [htail, List.getElem?_tail, hw]
    obtain ⟨t, hrun, ht⟩ := ih hu
    exact ⟨t, (run_succ core (k + 1) hstep).trans hrun, ht⟩

/-! ### The obligations -/

/-- Settles O36: a step settles the outputs and uses up no input, so the state after it is fixed. -/
theorem decodingAgainChangesNothing : Obligations.DecodingAgainChangesNothing := by
  intro s t n hp hq h
  obtain ⟨-, hpending, -, hnxPending⟩ := step_inputs h
  have hfix : step t = .next t :=
    step_settled_eq_self (by rw [hpending, hp, List.tail_nil]) (by rw [hnxPending, hq, List.tail_nil])
      (step_settles h)
  exact run_eq_self (M := core) hfix n

/-- Settles O37, by induction on the stream for the length and on the index for the words. -/
theorem streamWordsAreBigEndianPairs : Obligations.StreamWordsAreBigEndianPairs :=
  fun bytes => ⟨length_wordsOfStream bytes, wordsOfStream_getElem? bytes⟩

/-- Settles O38: a loaded stream's words are the pending list, which a run decodes in order. -/
theorem streamIsDecodedInOrder : Obligations.StreamIsDecodedInOrder := by
  intro s bytes k h
  obtain ⟨t, hrun, hword, hout⟩ :=
    run_decodes_pending (s := s.loadStream bytes) (wordsOfStream_getElem? bytes k h)
  exact ⟨t, hrun, hword, by rw [hout, recordOf_portsOf]⟩

/-- Settles O39: a step's inputs are the heads of the two queues, which it leaves the tails of. -/
theorem stepTakesTheNextInputs : Obligations.StepTakesTheNextInputs := by
  intro s t h
  obtain ⟨hword, hpending, hnx, hnxPending⟩ := step_inputs h
  rw [hword, hpending, hnx, hnxPending, presentNibble_nx_word, presentNibble_nx_idx]
  refine ⟨fun hp => ?_, fun w rest hp => ?_, fun hq => ?_, fun w i rest hq => ?_⟩
  · simp [hp]
  · simp [hp]
  · simp [hq]
  · simp [hq]

/-- Settles O44: two bytes are one word, and no shorter sequence holds one. -/
theorem decodeIsTotalOnBytes : Obligations.DecodeIsTotalOnBytes :=
  ⟨decodeBytes_cons, decodeBytes_error_iff⟩

end Sys2Proof.Proofs
end

section
/-! PROOFS. Encoding, 30_encoding.md: the decoder against the opcode table (R63 to R76), the words no
row matches and their numbers (R68 to R72), and the encoder's round trips. -/

namespace Sys2Proof.Proofs

open Sys2Proof.Machine Sys2Proof.Laws Sys2Proof.Claims

/-! ### The formats of R63, read by masks and shifts -/

theorem shift_eq_fieldX (w : Word) : (w >>> 8).setWidth 4 = fieldX w := by
  apply BitVec.eq_of_getLsbD_eq; intro i hi
  simp [fieldX, nib, hi]

theorem shift_eq_fieldY (w : Word) : (w >>> 4).setWidth 4 = fieldY w := by
  apply BitVec.eq_of_getLsbD_eq; intro i hi
  simp [fieldY, nib, hi]

/-- A word under a mask of `n` low ones is its low `n` bits, zero-extended. -/
theorem and_lowMask (w : Word) (n : Nat) :
    w &&& BitVec.ofNat 16 (2 ^ n - 1) = zext16 (w.extractLsb' 0 n) := by
  apply BitVec.eq_of_getLsbD_eq; intro i hi
  simp only [zext16, BitVec.getLsbD_and, BitVec.getLsbD_ofNat, BitVec.getLsbD_setWidth,
    BitVec.getLsbD_extractLsb', Nat.testBit_two_pow_sub_one, hi]
  simp [Bool.and_comm]

theorem formatRecord_exact (t : Tag) (w : Word) : formatRecord .exact t w = recordExact t := rfl

theorem formatRecord_a (t : Tag) (w : Word) :
    formatRecord .a t w = recordA t (fieldNNN w) := by
  simp only [recordA, fieldNNN, ← and_lowMask w 12]
  rfl

theorem formatRecord_xk (t : Tag) (w : Word) :
    formatRecord .xk t w = recordXK t (fieldX w) (fieldKK w) := by
  simp only [recordXK, fieldKK, ← and_lowMask w 8, ← shift_eq_fieldX]
  rfl

theorem formatRecord_xyDash (t : Tag) (w : Word) :
    formatRecord .xyDash t w = recordXY t (fieldX w) (fieldY w) := by
  simp only [recordXY, ← shift_eq_fieldX, ← shift_eq_fieldY]
  rfl

theorem formatRecord_xys (t : Tag) (w : Word) :
    formatRecord .xys t w = recordXY t (fieldX w) (fieldY w) :=
  formatRecord_xyDash t w

theorem formatRecord_xyn (t : Tag) (w : Word) :
    formatRecord .xyn t w = recordXYN t (fieldX w) (fieldY w) (fieldN w) := by
  have hn : fieldN w = w.extractLsb' 0 4 := rfl
  simp only [recordXYN, hn, ← and_lowMask w 4, ← shift_eq_fieldX, ← shift_eq_fieldY]
  rfl

theorem formatRecord_xs (t : Tag) (w : Word) :
    formatRecord .xs t w = recordX t (fieldX w) := by
  simp only [recordX, ← shift_eq_fieldX]
  rfl

/-- Every format but `RAW` outputs the row's tag. -/
theorem formatRecord_op {f : Format} (hf : f ≠ .raw) (t : Tag) (w : Word) :
    (formatRecord f t w).op = some t := by
  cases f with
  | raw => exact absurd rfl hf
  | _ => rfl

/-! ### What a match says about the fields of a word -/

theorem matches_iff (r : OpRow) (w : Word) : r.matches w = true ↔ w &&& r.mask = r.value := by
  simp [OpRow.matches]

theorem mask_cases : ∀ r ∈ opcodeTable,
    r.mask = 0xF000#16 ∨ r.mask = 0xF00F#16 ∨ r.mask = 0xF0FF#16 ∨ r.mask = 0xFFFF#16 := by
  decide

/-- Every mask covers nibble 0, so a row's words are all of one family. -/
theorem fieldF_of_matches {w : Word} {r : OpRow} (hr : r ∈ opcodeTable)
    (hm : r.matches w = true) : fieldF w = fieldF r.value := by
  have hmask : ∀ r ∈ opcodeTable, r.mask &&& 0xF000#16 = 0xF000#16 := by decide
  have hfam : w &&& 0xF000#16 = r.value &&& 0xF000#16 := by
    rw [← (matches_iff r w).1 hm, BitVec.and_assoc, hmask r hr]
  simpa [and_family] using congrArg fieldF hfam

/-- A row whose mask is all ones matches its own value alone. -/
theorem eq_value_of_matches {w : Word} {r : OpRow} (hmask : r.mask = 0xFFFF#16)
    (hm : r.matches w = true) : w = r.value := by
  rw [← (matches_iff r w).1 hm, hmask]
  exact (BitVec.and_allOnes (x := w)).symm

/-! ### Each row against the reference decode of R76 -/

/-- The rows of the families that R66 decodes by nibble 0 alone. -/
theorem refDecode_familyRow {w : Word} : ∀ r ∈ opcodeTable, r.mask = 0xF000#16 →
    fieldF w = fieldF r.value → refDecode w = formatRecord r.format r.tag w := by
  simp +decide only [opcodeTable, opcodeRowsControl, opcodeRowsArithmetic, opcodeRowsDevices,
    List.cons_append, List.nil_append, List.forall_mem_cons, List.not_mem_nil, false_implies,
    implies_true, true_and, and_true, forall_const]
  -- the twelve rows with this mask are left
  refine ⟨?_, ?_, ?_, ?_, ?_, ?_, ?_, ?_, ?_, ?_, ?_, ?_⟩
  all_goals
    intro hF
    obtain ⟨h1, h2⟩ := ne_exact_of_family (w := w) (by rw [hF]; decide)
    simp only [refDecode, if_neg h1, if_neg h2, ← fieldF_eq_slice, hF, formatRecord_a,
      formatRecord_xk, formatRecord_xyDash, formatRecord_xyn]
    rfl

/-- The rows of family 8 are the entries of R76's table for nibble 3. -/
theorem refDecode_nibbleRow {w : Word} {r : OpRow} (hr : r ∈ opcodeTable)
    (hmask : r.mask = 0xF00F#16) (hm : r.matches w = true) :
    refDecode w = formatRecord r.format r.tag w := by
  have hrows : ∀ r ∈ opcodeTable, r.mask = 0xF00F#16 →
      r.format = .xys ∧ r.value = wordXYN 0x8#4 0#4 0#4 (fieldN r.value) ∧
      refFamily8.lookup (fieldN r.value) = some r.tag := by decide
  obtain ⟨hformat, hvalue, htag⟩ := hrows r hr hmask
  have hF8 : fieldF r.value = 0x8#4 := by rw [hvalue, fieldF_wordXYN]
  rw [matches_iff, hmask, match_family_nibble_iff w _ (by rw [hF8]; exact hvalue), hF8] at hm
  obtain ⟨hF, hN⟩ := hm
  rw [refDecode_family8 hF, hN, htag, hformat, formatRecord_xys]
  rfl

/-- The rows of families 14 and 15 are the entries of R76's tables for the low byte. -/
theorem refDecode_byteRow {w : Word} {r : OpRow} (hr : r ∈ opcodeTable)
    (hmask : r.mask = 0xF0FF#16) (hm : r.matches w = true) :
    refDecode w = formatRecord r.format r.tag w := by
  have hrows : ∀ r ∈ opcodeTable, r.mask = 0xF0FF#16 →
      r.format = .xs ∧ r.value = wordXK (fieldF r.value) 0#4 (fieldKK r.value) ∧
      (fieldF r.value = 0xE#4 ∧ refFamilyE.lookup (fieldKK r.value) = some r.tag ∨
        fieldF r.value = 0xF#4 ∧ refFamilyF.lookup (fieldKK r.value) = some r.tag) := by decide
  obtain ⟨hformat, hvalue, hfamily⟩ := hrows r hr hmask
  rw [matches_iff, hmask, match_family_byte_iff w _ hvalue] at hm
  obtain ⟨hF, hK⟩ := hm
  rw [hformat, formatRecord_xs]
  rcases hfamily with ⟨hfam, htag⟩ | ⟨hfam, htag⟩
  · rw [refDecode_familyE (hF.trans hfam), hK, htag]
    rfl
  · rw [refDecode_familyF (hF.trans hfam), hK, htag]
    rfl

/-- A word that a row matches decodes to that row's tag and the fields of its format. -/
theorem refDecode_of_matches {w : Word} {r : OpRow} (hr : r ∈ opcodeTable)
    (hm : r.matches w = true) : refDecode w = formatRecord r.format r.tag w := by
  rcases mask_cases r hr with hmask | hmask | hmask | hmask
  · exact refDecode_familyRow r hr hmask (fieldF_of_matches hr hm)
  · exact refDecode_nibbleRow hr hmask hm
  · exact refDecode_byteRow hr hmask hm
  · have hexact : ∀ r ∈ opcodeTable, r.mask = 0xFFFF#16 →
        refDecode r.value = formatRecord r.format r.tag r.value := by decide
    rw [eq_value_of_matches hmask hm]
    exact hexact r hr hmask

theorem refDecode_op_of_matches {w : Word} {r : OpRow} (hr : r ∈ opcodeTable)
    (hm : r.matches w = true) : (refDecode w).op = some r.tag := by
  have hformat : ∀ r ∈ opcodeTable, r.format ≠ .raw := by decide
  rw [refDecode_of_matches hr hm, formatRecord_op (hformat r hr)]

/-! ### Every word has a row or is one of the four sets of R72 -/

theorem refDecode_of_unmatched {w : Word} (h : unmatched w = true) :
    refDecode w = recordRaw w := by
  have hdrive := exec_decodeWord w State.reset
  rw [decodeWord_of_unmatched h] at hdrive
  have hports : portsOf (recordRaw w) = portsOf (refDecode w) := by
    simpa [exec, execFallback, drive] using hdrive
  rw [← recordOf_portsOf (refDecode w), ← hports, recordOf_portsOf]

theorem exists_row_of_family : ∀ f : Nibble, f ∉ [0x0#4, 0x8#4, 0xE#4, 0xF#4] →
    ∃ r ∈ opcodeTable, r.mask = 0xF000#16 ∧ r.value = wordXYN f 0#4 0#4 0#4 := by decide

theorem exists_row_of_subOpcode : ∀ n : Nibble, ¬ (8 ≤ n.toNat ∧ n.toNat ≤ 14) →
    ∃ r ∈ opcodeTable, r.mask = 0xF00F#16 ∧ r.value = wordXYN 0x8#4 0#4 0#4 n := by decide

theorem exists_row_of_byteE : ∀ kk ∈ [0x9E#8, 0xA1#8],
    ∃ r ∈ opcodeTable, r.mask = 0xF0FF#16 ∧ r.value = wordXK 0xE#4 0#4 kk := by decide

theorem exists_row_of_byteF :
    ∀ kk ∈ [0x07#8, 0x0A#8, 0x15#8, 0x18#8, 0x1E#8, 0x29#8, 0x33#8, 0x55#8, 0x65#8],
      ∃ r ∈ opcodeTable, r.mask = 0xF0FF#16 ∧ r.value = wordXK 0xF#4 0#4 kk := by decide

theorem exists_row_of_exact {w : Word} (h : w = 0x00E0#16 ∨ w = 0x00EE#16) :
    ∃ r ∈ opcodeTable, r.mask = 0xFFFF#16 ∧ r.value = w := by
  rcases h with rfl | rfl
  · decide
  · decide

/-- R72: family by family, what is left over by the rows is unmatched. -/
theorem exists_row_of_not_unmatched {w : Word} (h : unmatched w ≠ true) :
    ∃ r ∈ opcodeTable, r.matches w = true := by
  simp only [ne_eq, unmatched_iff, not_or, not_and, not_not] at h
  obtain ⟨h0, h8, hE, hF⟩ := h
  simp only [matches_iff]
  by_cases hfam : fieldF w ∈ [0x0#4, 0x8#4, 0xE#4, 0xF#4]
  · simp only [List.mem_cons, List.not_mem_nil, or_false] at hfam
    rcases hfam with hf | hf | hf | hf
    · obtain ⟨r, hr, hmask, hvalue⟩ := exists_row_of_exact (or_iff_not_imp_left.2 (h0 hf))
      exact ⟨r, hr, by rw [hmask, hvalue]; exact BitVec.and_allOnes⟩
    · obtain ⟨r, hr, hmask, hvalue⟩ := exists_row_of_subOpcode (fieldN w) (by simpa using h8 hf)
      exact ⟨r, hr, by rw [hmask, hvalue, and_family_nibble, hf]⟩
    · obtain ⟨r, hr, hmask, hvalue⟩ := exists_row_of_byteE (fieldKK w) (hE hf)
      exact ⟨r, hr, by rw [hmask, hvalue, and_family_byte, hf]⟩
    · obtain ⟨r, hr, hmask, hvalue⟩ := exists_row_of_byteF (fieldKK w) (hF hf)
      exact ⟨r, hr, by rw [hmask, hvalue, and_family_byte, hf]⟩
  · obtain ⟨r, hr, hmask, hvalue⟩ := exists_row_of_family (fieldF w) hfam
    exact ⟨r, hr, by rw [hmask, hvalue, and_family]⟩

/-- R72: no row matches a word exactly when it is in one of the four sets. -/
theorem no_row_iff_unmatched (w : Word) :
    (∀ r ∈ opcodeTable, r.matches w = false) ↔ unmatched w = true := by
  constructor
  · intro hnone
    by_contra h
    obtain ⟨r, hr, hm⟩ := exists_row_of_not_unmatched h
    simp [hnone r hr] at hm
  · intro h r hr
    by_contra hm
    have hop := refDecode_op_of_matches hr (by simpa using hm)
    simp [refDecode_of_unmatched h, recordRaw] at hop

/-- The operator is absent exactly for the words of R72. -/
theorem refDecode_op_eq_none_iff (w : Word) : (refDecode w).op = none ↔ unmatched w = true := by
  constructor
  · intro hop
    by_contra h
    obtain ⟨r, hr, hm⟩ := exists_row_of_not_unmatched h
    simp [refDecode_op_of_matches hr hm] at hop
  · intro h
    rw [refDecode_of_unmatched h]
    rfl

theorem tableDecode_eq_refDecode (w : Word) : tableDecode w = refDecode w := by
  unfold tableDecode
  split
  case h_1 r hfind =>
    have hm : r.matches w = true := by simpa using List.find?_some hfind
    exact (refDecode_of_matches (List.mem_of_find?_eq_some hfind) hm).symm
  case h_2 hfind =>
    have hnone : ∀ r ∈ opcodeTable, r.matches w = false := by simpa using hfind
    exact (refDecode_of_unmatched ((no_row_iff_unmatched w).1 hnone)).symm

/-! ### Steps -/

/-- A claim about the wires of all words with a property is one about their reference decode. -/
theorem wordsDrive_of {p : Word → Prop} {wires : Word → Ports}
    (h : ∀ w, p w → portsOf (refDecode w) = wires w) : WordsDrive p wires := by
  intro s w rest hs hp
  simp [step_eq_next, hs, h w hp, present_nx]

theorem wordsDrive_unmatched : WordsDrive (fun w => unmatched w = true) rawWires :=
  wordsDrive_of fun w h => by rw [refDecode_of_unmatched h]; rfl

/-- Words of a property that makes them unmatched drive the fallback wires. -/
theorem wordsDrive_raw {p : Word → Prop} (h : ∀ w, p w → unmatched w = true) :
    WordsDrive p rawWires :=
  fun s w rest hs hp => wordsDrive_unmatched s w rest hs (h w hp)

theorem step_out_of_matches {s t : State} (h : step s = .next t) {r : OpRow}
    (hr : r ∈ opcodeTable) (hm : r.matches t.word = true) :
    t.out = portsOf (formatRecord r.format r.tag t.word) := by
  rw [step_out h, refDecode_of_matches hr hm]

/-- The code of a tag is driven exactly for the words of the tag's rows. -/
theorem step_op_eq_tagCode_iff {s t : State} (h : step s = .next t) (tag : Tag) :
    t.out.op = tagCode tag ↔ ∃ r ∈ opcodeTable, r.tag = tag ∧ r.matches t.word = true := by
  have hop : t.out.op = opBus (refDecode t.word).op := by rw [step_out h]; rfl
  rw [hop]
  constructor
  · intro hcode
    by_cases hu : unmatched t.word = true
    · rw [(refDecode_op_eq_none_iff _).2 hu] at hcode
      exact absurd hcode.symm (tagCode_ne_zero tag)
    · obtain ⟨r, hr, hm⟩ := exists_row_of_not_unmatched hu
      rw [refDecode_op_of_matches hr hm] at hcode
      exact ⟨r, hr, tagCode_inj hcode, hm⟩
  · rintro ⟨r, hr, rfl, hm⟩
    rw [refDecode_op_of_matches hr hm]
    rfl

/-- The wires after a step that drives an operator, when the rows whose code and family have the
property `p` are all of one format. -/
theorem step_out_of_format {s t : State} (h : step s = .next t) (p : OpCode → Nibble → Prop)
    (f : Format) (h0 : ∀ family, ¬ p 0#6 family)
    (hrows : ∀ r ∈ opcodeTable, p (tagCode r.tag) (fieldF r.value) → r.format = f)
    (hp : p t.out.op (fieldF t.word)) : ∃ tag, t.out = portsOf (formatRecord f tag t.word) := by
  by_cases hu : unmatched t.word = true
  · rw [step_out h, refDecode_of_unmatched hu] at hp
    exact absurd hp (h0 _)
  · obtain ⟨r, hr, hm⟩ := exists_row_of_not_unmatched hu
    have hcode : t.out.op = tagCode r.tag :=
      (step_op_eq_tagCode_iff h r.tag).2 ⟨r, hr, rfl, hm⟩
    rw [hcode, fieldF_of_matches hr hm] at hp
    exact ⟨r.tag, hrows r hr hp ▸ step_out_of_matches h hr hm⟩

/-! ### The obligations on the table -/

/-- Settles O23: a step leaves both blocks' outputs settled on their inputs. -/
theorem everyStepSettlesTheOutputs : Obligations.EveryStepSettlesTheOutputs :=
  fun _ _ h => step_settles h

/-- Settles O24: the consumer reads the reference record back, and table look-up gives the same. -/
theorem outputsAgreeWithTheOpcodeTable : Obligations.OutputsAgreeWithTheOpcodeTable := by
  intro s t h
  rw [step_out h, recordOf_portsOf, tableDecode_eq_refDecode]

/-- Settles O19: the words without a row are the unmatched ones. -/
theorem fallbackWords : Obligations.FallbackWords := by
  refine ⟨wordsDrive_raw fun w => (no_row_iff_unmatched w).1, fun s t h => ?_,
    wordsDrive_raw fun w hw => hw ▸ by decide⟩
  have hvalid : t.out.opValid = (refDecode t.word).op.isSome := by rw [step_out h]; rfl
  rw [no_row_iff_unmatched, ← refDecode_op_eq_none_iff, hvalid, Option.isSome_eq_false_iff,
    Option.isNone_iff_eq_none]

/-- Settles O20: SHL has one row, and 8xyE is unmatched. -/
theorem shlIsSubOpcodeF : Obligations.ShlIsSubOpcodeF := by
  refine ⟨wordsDrive_raw fun w hw => ?_, fun s t h => ?_⟩
  · obtain ⟨hF, hN⟩ := (match_family_nibble_iff w 0x800E#16 (by decide)).1 hw
    exact (unmatched_iff w).2 (.inr (.inl ⟨hF, by rw [hN]; decide⟩))
  · rw [show (22#6 : OpCode) = tagCode .SHL from rfl, step_op_eq_tagCode_iff h]
    simp [opcodeTable, opcodeRowsControl, opcodeRowsArithmetic, opcodeRowsDevices, matches_iff]

/-- Settles O22: a step answers for every state, with the next word on the input. -/
theorem everyWordIsDecoded : Obligations.EveryWordIsDecoded :=
  fun s => ⟨_, step_eq_next s, present_word s⟩

/-- Two rows that match one word have values that agree where both masks are 1; no two rows do. -/
theorem row_eq_of_matches {w : Word} {r r' : OpRow} (hr : r ∈ opcodeTable) (hr' : r' ∈ opcodeTable)
    (hm : r.matches w = true) (hm' : r'.matches w = true) : r = r' := by
  have hrows : ∀ r ∈ opcodeTable, ∀ r' ∈ opcodeTable,
      r.value &&& r'.mask = r'.value &&& r.mask → r = r' := by decide
  rw [matches_iff] at hm hm'
  apply hrows r hr r' hr'
  rw [← hm, ← hm', BitVec.and_assoc, BitVec.and_assoc, BitVec.and_comm r.mask]

/-- Settles O25: rows are disjoint under their common mask, and family 0 has two exact rows. -/
theorem patternsAreDisjoint : Obligations.PatternsAreDisjoint := by
  refine ⟨fun w r r' hr hr' hm hm' => row_eq_of_matches hr hr' hm hm', fun w r hr hm hF => ?_⟩
  have hrows : ∀ r ∈ opcodeTable, fieldF r.value = 0#4 →
      r.mask = 0xFFFF#16 ∧ (r.value = 0x00E0#16 ∨ r.value = 0x00EE#16) := by decide
  obtain ⟨hmask, hvalue⟩ := hrows r hr ((fieldF_of_matches hr hm).symm.trans hF)
  rwa [eq_value_of_matches hmask hm]

/-- Settles O28: JP and ADDI have no row, and ADD has two. -/
theorem jpAndAddiAreNeverDriven : Obligations.JpAndAddiAreNeverDriven := by
  have hnone : ∀ r ∈ opcodeTable, r.tag ≠ .JP ∧ r.tag ≠ .ADDI := by decide
  refine ⟨fun s t h => ⟨fun hop => ?_, fun hop => ?_, ?_⟩, rfl, rfl⟩
  · obtain ⟨r, hr, htag, -⟩ := (step_op_eq_tagCode_iff h .JP).1 hop
    exact (hnone r hr).1 htag
  · obtain ⟨r, hr, htag, -⟩ := (step_op_eq_tagCode_iff h .ADDI).1 hop
    exact (hnone r hr).2 htag
  · rw [show (14#6 : OpCode) = tagCode .ADD from rfl, step_op_eq_tagCode_iff h]
    simp [opcodeTable, opcodeRowsControl, opcodeRowsArithmetic, opcodeRowsDevices, matches_iff]

/-- Settles O40: the extractor is settled after a step, and `nib` is the slice its index names. -/
theorem extractorDrivesTheSelectedNibble : Obligations.ExtractorDrivesTheSelectedNibble := by
  intro s t h
  obtain ⟨-, hnib⟩ := step_settles h
  rw [hnib]
  refine ⟨fun hi => ?_, fun hi => ?_, fun hi => ?_, fun hi => ?_⟩
  all_goals
    rw [hi]
    rfl

/-- Settles O45: the seven words are fixed, so their spelling is computed. -/
theorem spellingExamples : Obligations.SpellingExamples := by
  unfold Obligations.SpellingExamples
  decide

/-! ### The wires of each format -/

/-- The upper three nibbles lie in the slice `w[15:4]`. -/
theorem nibble_of_slice (w : Word) {low : Nat} (hlow : low ≤ 8) :
    w.extractLsb' (low + 4) 4 = (w.extractLsb 15 4).extractLsb' low 4 := by
  apply BitVec.eq_of_getLsbD_eq; intro i hi
  have hbit : low + i ≤ 11 := by omega
  simp [hi, hbit, show low + 4 + i = 4 + (low + i) by omega]

/-- Bits 15:4 of a word are its family and its two registers. -/
theorem fields_of_slice {v w : Word} (h : v.extractLsb 15 4 = w.extractLsb 15 4) :
    fieldF v = fieldF w ∧ fieldX v = fieldX w ∧ fieldY v = fieldY w := by
  have hnibble : ∀ low ≤ 8, v.extractLsb' (low + 4) 4 = w.extractLsb' (low + 4) 4 := by
    intro low hlow
    rw [nibble_of_slice v hlow, nibble_of_slice w hlow, h]
  exact ⟨hnibble 8 (by decide), hnibble 4 (by decide), hnibble 0 (by decide)⟩

theorem refDecode_family5 {w : Word} (hF : fieldF w = 0x5#4) :
    refDecode w = recordXY .SE (fieldX w) (fieldY w) :=
  (refDecode_familyRow ⟨.SE, .xyDash, 0x5000#16, 0xF000#16⟩ (by decide) rfl hF).trans
    (formatRecord_xyDash _ _)

theorem refDecode_family9 {w : Word} (hF : fieldF w = 0x9#4) :
    refDecode w = recordXY .SNE (fieldX w) (fieldY w) :=
  (refDecode_familyRow ⟨.SNE, .xyDash, 0x9000#16, 0xF000#16⟩ (by decide) rfl hF).trans
    (formatRecord_xyDash _ _)

/-- Settles O21: the records of families 5 and 9 are made of bits 15:4. -/
theorem familiesFiveAndNineIgnoreNibbleThree :
    Obligations.FamiliesFiveAndNineIgnoreNibbleThree := by
  intro s t s' t' h h' hfamily hslice
  obtain ⟨hF, hX, hY⟩ := fields_of_slice hslice
  rw [← fieldF_eq_slice] at hfamily
  rw [step_out h, step_out h', ← fieldF_eq_slice]
  rcases hfamily with hf | hf
  · rw [refDecode_family5 hf, refDecode_family5 (hF.symm.trans hf), hX, hY, if_pos hf]
    exact ⟨rfl, rfl, rfl⟩
  · have hf5 : fieldF t.word ≠ 0x5#4 := fun h5 => absurd (h5.symm.trans hf) (by decide)
    rw [refDecode_family9 hf, refDecode_family9 (hF.symm.trans hf), hX, hY, if_neg hf5]
    exact ⟨rfl, rfl, rfl⟩

/-- The `op` bus is 0 exactly for the words of R72. -/
theorem step_op_eq_zero_iff {s t : State} (h : step s = .next t) :
    t.out.op = 0#6 ↔ unmatched t.word = true := by
  have hop : t.out.op = opBus (refDecode t.word).op := by rw [step_out h]; rfl
  rw [hop, ← refDecode_op_eq_none_iff]
  cases (refDecode t.word).op with
  | none => simp
  | some tag => simp [tagCode_ne_zero tag]

/-- Settles O29: each clause names the rows of one format of R63, whose wires are that format's. -/
theorem operandShapeOfEveryTag : Obligations.OperandShapeOfEveryTag := by
  intro s t h
  simp only [← fieldF_eq_slice]
  refine ⟨fun hop => ?_, fun hop => ?_, fun hop => ?_, fun hop => ?_, fun hop => ?_, fun hop => ?_,
    fun hop => ?_⟩
  case refine_1 =>
    obtain ⟨tag, hout⟩ := step_out_of_format h (fun c _ => c ∈ [1#6, 2#6]) .exact
      (by decide) (by decide) hop
    rw [hout]
    exact ⟨rfl, rfl, rfl⟩
  case refine_2 =>
    obtain ⟨tag, hout⟩ := step_out_of_format h (fun c _ => c ∈ [4#6, 6#6, 11#6, 5#6]) .a
      (by decide) (by decide) hop
    rw [hout, formatRecord_a]
    exact ⟨rfl, rfl, rfl, rfl⟩
  case refine_3 =>
    obtain ⟨tag, hout⟩ := step_out_of_format h
      (fun c f => c ∈ [8#6, 10#6, 13#6, 23#6] ∨ (c = 14#6 ∧ f = 7#4)) .xk
      (by decide) (by decide) hop
    rw [hout, formatRecord_xk]
    exact ⟨rfl, rfl, rfl, rfl, rfl⟩
  case refine_4 =>
    have hcases : t.out.op ∈ [7#6, 9#6] ∨
        (t.out.op ∈ [12#6, 16#6, 17#6, 18#6, 19#6, 20#6, 21#6, 22#6] ∨
          (t.out.op = 14#6 ∧ fieldF t.word = 8#4)) := by
      rw [← or_assoc]
      exact hop.imp_left (List.mem_append (s := [7#6, 9#6])).1
    obtain ⟨tag, hout⟩ :
        ∃ tag, t.out = portsOf (recordXY tag (fieldX t.word) (fieldY t.word)) := by
      rcases hcases with hop | hop
      · obtain ⟨tag, hout⟩ := step_out_of_format h (fun c _ => c ∈ [7#6, 9#6]) .xyDash
          (by decide) (by decide) hop
        exact ⟨tag, by rw [hout, formatRecord_xyDash]⟩
      · obtain ⟨tag, hout⟩ := step_out_of_format h
          (fun c f => c ∈ [12#6, 16#6, 17#6, 18#6, 19#6, 20#6, 21#6, 22#6] ∨ (c = 14#6 ∧ f = 8#4))
          .xys (by decide) (by decide) hop
        exact ⟨tag, by rw [hout, formatRecord_xys]⟩
    rw [hout]
    exact ⟨rfl, rfl, rfl, rfl, rfl⟩
  case refine_5 =>
    obtain ⟨tag, hout⟩ := step_out_of_format h (fun c _ => c = 24#6) .xyn
      (by decide) (by decide) hop
    rw [hout, formatRecord_xyn]
    exact ⟨rfl, rfl, rfl, rfl, rfl, rfl⟩
  case refine_6 =>
    obtain ⟨tag, hout⟩ := step_out_of_format h
      (fun c _ => c ∈ [25#6, 26#6, 27#6, 28#6, 29#6, 30#6, 31#6, 32#6, 33#6, 34#6, 35#6]) .xs
      (by decide) (by decide) hop
    rw [hout, formatRecord_xs]
    exact ⟨rfl, rfl, rfl, rfl⟩
  case refine_7 =>
    rw [step_out h, refDecode_of_unmatched ((step_op_eq_zero_iff h).1 hop)]
    exact ⟨rfl, rfl, rfl, rfl⟩

/-! ### Round trips of the encoder -/

/-- Settles O42, constructor by constructor. -/
theorem decodeOfEncodeIsTheInstruction : Obligations.DecodeOfEncodeIsTheInstruction := by
  intro i
  cases i with
  | ret => exact RoundTrip.ret
  | jpi nnn => exact RoundTrip.jpi nnn
  | call nnn => exact RoundTrip.call nnn
  | jpo nnn => exact RoundTrip.jpo nnn
  | sei x kk => exact RoundTrip.sei x kk
  | snei x kk => exact RoundTrip.snei x kk
  | se x y => exact RoundTrip.se x y
  | sne x y => exact RoundTrip.sne x y
  | skp x => exact RoundTrip.skp x
  | sknp x => exact RoundTrip.sknp x
  | ldi x kk => exact RoundTrip.ldi x kk
  | addByte x kk => exact RoundTrip.addByte x kk
  | ld x y => exact RoundTrip.ld x y
  | or x y => exact RoundTrip.or x y
  | and x y => exact RoundTrip.and x y
  | xor x y => exact RoundTrip.xor x y
  | addReg x y => exact RoundTrip.addReg x y
  | sub x y => exact RoundTrip.sub x y
  | shr x y => exact RoundTrip.shr x y
  | subn x y => exact RoundTrip.subn x y
  | shl x y => exact RoundTrip.shl x y
  | rnd x kk => exact RoundTrip.rnd x kk
  | sti nnn => exact RoundTrip.sti nnn
  | addIVx x => exact RoundTrip.addIVx x
  | ldFVx x => exact RoundTrip.ldFVx x
  | ldBVx x => exact RoundTrip.ldBVx x
  | ldMemVx x => exact RoundTrip.ldMemVx x
  | ldVxMem x => exact RoundTrip.ldVxMem x
  | ldVxDt x => exact RoundTrip.ldVxDt x
  | ldDtVx x => exact RoundTrip.ldDtVx x
  | ldStVx x => exact RoundTrip.ldStVx x
  | cls => exact RoundTrip.cls
  | drw x y n => exact RoundTrip.drw x y n
  | ldVxK x => exact RoundTrip.ldVxK x
  | fallback w => exact RoundTrip.fallback w

theorem wellFormed_decodeWord (w : Word) : (decodeWord w).wellFormed = true := by
  cases hi : decodeWord w with
  | fallback v =>
    obtain ⟨hu, rfl⟩ := unmatched_of_decodeWord hi
    exact hu
  | _ => rfl

/-- The words that differ from `f x y -` in nibble 3. -/
theorem mem_map_wordXYN_iff (f : Nibble) (x y : RegIdx) (w : Word) :
    w ∈ (List.range 16).map (fun n => wordXYN f x y (BitVec.ofNat 4 n)) ↔
      fieldF w = f ∧ fieldX w = x ∧ fieldY w = y := by
  simp only [List.mem_map, List.mem_range]
  constructor
  · rintro ⟨n, -, rfl⟩
    simp
  · rintro ⟨rfl, rfl, rfl⟩
    exact ⟨(fieldN w).toNat, (fieldN w).isLt, by simp⟩

/-- R74: every word listed for an instruction decodes to it. -/
theorem decodeWord_of_mem_encodings {i : Instr} {w : Word} (hi : i.wellFormed = true)
    (hw : w ∈ encodings i) : decodeWord w = i := by
  cases i with
  | se x y =>
    obtain ⟨hF, rfl, rfl⟩ := (mem_map_wordXYN_iff _ _ _ _).1 hw
    rw [decodeWord_of_family (by simp [hF])]
    simp [decodeFamily, hF]
  | sne x y =>
    obtain ⟨hF, rfl, rfl⟩ := (mem_map_wordXYN_iff _ _ _ _).1 hw
    rw [decodeWord_of_family (by simp [hF])]
    simp [decodeFamily, hF]
  | _ =>
    obtain rfl := List.mem_singleton.1 hw
    exact decodeOfEncodeIsTheInstruction _ hi

theorem mem_encodings_decodeFamily8 {w : Word} (hF : fieldF w = 0x8#4) :
    w ∈ encodings (decodeFamily8 w) := by
  have hw := wordXYN_fields w
  unfold decodeFamily8
  split
  case h_10 => exact List.mem_singleton_self w
  all_goals
    rename_i hN
    rw [hF, hN] at hw
    exact List.mem_singleton.2 hw.symm

theorem mem_encodings_decodeFamilyE {w : Word} (hF : fieldF w = 0xE#4) :
    w ∈ encodings (decodeFamilyE w) := by
  have hw := wordXK_fields w
  unfold decodeFamilyE
  split
  case h_3 => exact List.mem_singleton_self w
  all_goals
    rename_i hK
    rw [hF, hK] at hw
    exact List.mem_singleton.2 hw.symm

theorem mem_encodings_decodeFamilyF {w : Word} (hF : fieldF w = 0xF#4) :
    w ∈ encodings (decodeFamilyF w) := by
  have hw := wordXK_fields w
  unfold decodeFamilyF
  split
  case h_10 => exact List.mem_singleton_self w
  all_goals
    rename_i hK
    rw [hF, hK] at hw
    exact List.mem_singleton.2 hw.symm

theorem mem_encodings_decodeFamily (w : Word) : w ∈ encodings (decodeFamily w) := by
  have hA := wordA_fields w
  have hXK := wordXK_fields w
  have hXYN := wordXYN_fields w
  unfold decodeFamily
  split
  case h_5 hF => exact (mem_map_wordXYN_iff ..).2 ⟨hF, rfl, rfl⟩
  case h_9 hF => exact (mem_map_wordXYN_iff ..).2 ⟨hF, rfl, rfl⟩
  case h_8 hF => exact mem_encodings_decodeFamily8 hF
  case h_14 hF => exact mem_encodings_decodeFamilyE hF
  case h_15 hF => exact mem_encodings_decodeFamilyF hF
  case h_13 hF => exact List.mem_singleton.2 (hF ▸ hXYN).symm
  case h_16 => exact List.mem_singleton_self w
  case h_1 hF | h_2 hF | h_10 hF | h_11 hF =>
    rw [hF] at hA
    exact List.mem_singleton.2 hA.symm
  all_goals
    rename_i hF
    rw [hF] at hXK
    exact List.mem_singleton.2 hXK.symm

/-- No bit of a word is lost in decoding it: the word is listed for its instruction. -/
theorem mem_encodings_decodeWord (w : Word) : w ∈ encodings (decodeWord w) := by
  unfold decodeWord
  split
  case isTrue h => exact List.mem_singleton.2 h
  case isFalse =>
    split
    case isTrue h => exact List.mem_singleton.2 h
    case isFalse => exact mem_encodings_decodeFamily w

/-- Settles O43: the words listed for an instruction decode to it, and a word is listed for the
instruction it decodes to. -/
theorem encodingsAreExactlyTheWords : Obligations.EncodingsAreExactlyTheWords := by
  refine fun w => ⟨wellFormed_decodeWord w, fun i hi => ⟨?_, decodeWord_of_mem_encodings hi⟩⟩
  rintro rfl
  exact mem_encodings_decodeWord w

/-! ### Counting words -/

/-- A count over `k` periods is `k` times the count over one. -/
theorem countP_range_mul_of_periodic {a : Nat} {q : Nat → Bool} (hq : ∀ n, q (a + n) = q n)
    (k : Nat) :
    (List.range (k * a)).countP q = k * (List.range a).countP q := by
  induction k with
  | zero => simp
  | succ k ih =>
    have hshift : q ∘ (a + ·) = q := funext hq
    rw [Nat.succ_mul, Nat.add_comm, List.range_add, List.countP_append, List.countP_map, hshift, ih]
    ring

theorem toNat_slice_ofNat (m low len : Nat) :
    ((BitVec.ofNat 16 m).extractLsb' low len).toNat = m % 2 ^ 16 / 2 ^ low % 2 ^ len := by
  rw [BitVec.extractLsb'_toNat, BitVec.toNat_ofNat, Nat.shiftRight_eq_div_pow]

theorem fieldF_ofNat (f : Nat) {n : Nat} (hn : n < 4096) :
    fieldF (BitVec.ofNat 16 (4096 * f + n)) = BitVec.ofNat 4 f := by
  apply BitVec.eq_of_toNat_eq
  refine (toNat_slice_ofNat _ 12 4).trans ?_
  rw [BitVec.toNat_ofNat]
  omega

theorem fieldN_ofNat (f n : Nat) :
    fieldN (BitVec.ofNat 16 (4096 * f + n)) = BitVec.ofNat 4 n := by
  apply BitVec.eq_of_toNat_eq
  refine (toNat_slice_ofNat _ 0 4).trans ?_
  rw [BitVec.toNat_ofNat]
  omega

theorem fieldKK_ofNat (f n : Nat) :
    fieldKK (BitVec.ofNat 16 (4096 * f + n)) = BitVec.ofNat 8 n := by
  apply BitVec.eq_of_toNat_eq
  refine (toNat_slice_ofNat _ 0 8).trans ?_
  rw [BitVec.toNat_ofNat]
  omega

theorem fieldNNN_ofNat (f n : Nat) :
    fieldNNN (BitVec.ofNat 16 (4096 * f + n)) = BitVec.ofNat 12 n := by
  apply BitVec.eq_of_toNat_eq
  refine (toNat_slice_ofNat _ 0 12).trans ?_
  rw [BitVec.toNat_ofNat]
  omega

/-- Of the values of width `w`, as many are in a duplicate-free list as it has entries. -/
theorem countP_mem {w : Nat} {l : List (BitVec w)} (hl : l.Nodup) :
    (List.range (2 ^ w)).countP (fun n => decide (BitVec.ofNat w n ∈ l)) = l.length := by
  have hnodup : ((List.range (2 ^ w)).map (BitVec.ofNat w)).Nodup := by
    refine (List.nodup_map_iff_inj_on List.nodup_range).2 fun n hn m hm h => ?_
    have hmod := congrArg BitVec.toNat h
    rwa [BitVec.toNat_ofNat, BitVec.toNat_ofNat, Nat.mod_eq_of_lt (List.mem_range.1 hn),
      Nat.mod_eq_of_lt (List.mem_range.1 hm)] at hmod
  have hperm : (((List.range (2 ^ w)).map (BitVec.ofNat w)).filter (· ∈ l)).Perm l := by
    refine (List.perm_ext_iff_of_nodup (hnodup.filter _) hl).2 fun v => ?_
    have hv : v ∈ (List.range (2 ^ w)).map (BitVec.ofNat w) :=
      List.mem_map.2 ⟨v.toNat, List.mem_range.2 v.isLt, by simp⟩
    simp [hv]
  rw [← hperm.length_eq, ← List.countP_eq_length_filter, List.countP_map]
  rfl

/-- The other values of width `w` are not in it. -/
theorem countP_not_mem {w : Nat} {l : List (BitVec w)} (hl : l.Nodup) :
    (List.range (2 ^ w)).countP (fun n => decide (BitVec.ofNat w n ∉ l)) = 2 ^ w - l.length := by
  have hsum := List.length_eq_countP_add_countP (l := List.range (2 ^ w))
    fun n => decide (BitVec.ofNat w n ∈ l)
  rw [countP_mem hl, List.length_range] at hsum
  simp only [decide_eq_true_eq] at hsum
  omega

/-- The count of a family needs the property on that family's words alone. -/
theorem countFamily_congr {f : Nat} {p q : Word → Bool}
    (h : ∀ w, fieldF w = BitVec.ofNat 4 f → p w = q w) : countFamily f p = countFamily f q := by
  refine List.countP_congr fun n hn => ?_
  rw [h _ (fieldF_ofNat f (List.mem_range.1 hn))]

/-- A property of nibble 3 alone: each nibble that has it counts for 256 words of a family. -/
theorem countFamily_fieldN (f : Nat) (q : Nibble → Bool) :
    countFamily f (fun w => q (fieldN w)) =
      256 * (List.range 16).countP fun n => q (BitVec.ofNat 4 n) := by
  simp only [countFamily, fieldN_ofNat]
  exact countP_range_mul_of_periodic (a := 16) (fun n => by rw [BitVec.ofNat_add]; simp) 256

/-- A property of the low byte alone: each byte that has it counts for 16 words of a family. -/
theorem countFamily_fieldKK (f : Nat) (q : Byte → Bool) :
    countFamily f (fun w => q (fieldKK w)) =
      16 * (List.range 256).countP fun n => q (BitVec.ofNat 8 n) := by
  simp only [countFamily, fieldKK_ofNat]
  exact countP_range_mul_of_periodic (a := 256) (fun n => by rw [BitVec.ofNat_add]; simp) 16

/-- The words of a family whose low 12 bits are not listed. -/
theorem countFamily_fieldNNN_not_mem (f : Nat) {l : List Addr} (hl : l.Nodup) :
    countFamily f (fun w => decide (fieldNNN w ∉ l)) = 4096 - l.length := by
  simp only [countFamily, fieldNNN_ofNat]
  exact countP_not_mem hl

/-- The words of a family whose low byte is not listed. -/
theorem countFamily_fieldKK_not_mem (f : Nat) {l : List Byte} (hl : l.Nodup) :
    countFamily f (fun w => decide (fieldKK w ∉ l)) = 16 * (256 - l.length) := by
  rw [countFamily_fieldKK f fun kk => decide (kk ∉ l)]
  exact congrArg (16 * ·) (countP_not_mem hl)

/-- The exact words of R66 are told from the other words of family 0 by their low 12 bits. -/
theorem eq_iff_fieldNNN {v w : Word} (h : fieldF w = fieldF v) :
    w = v ↔ fieldNNN w = fieldNNN v := by
  refine ⟨congrArg fieldNNN, fun hn => ?_⟩
  rw [← wordA_fields w, ← wordA_fields v, h, hn]

theorem countFamily_const (f : Nat) (b : Bool) :
    countFamily f (fun _ => b) = if b then 4096 else 0 := by
  cases b <;> simp [countFamily]

theorem countFamily_not (f : Nat) (p : Word → Bool) :
    countFamily f (fun w => !p w) = 4096 - countFamily f p := by
  have h := List.length_eq_countP_add_countP (l := List.range 4096)
    (fun n => p (BitVec.ofNat 16 (4096 * f + n)))
  simp only [List.length_range, Bool.not_eq_true, Bool.decide_eq_false] at h
  simp only [countFamily]
  omega

theorem countWords_eq_sum {p : Word → Bool} {c : Nat → Nat} (h : ∀ f < 16, countFamily f p = c f) :
    countWords p = ∑ f ∈ Finset.range 16, c f := by
  unfold countWords
  rw [List.map_congr_left fun f hf => h f (List.mem_range.1 hf)]
  rfl

/-! ### The sizes of the four sets of R72 -/

/-- Every word of the other twelve families has a row. -/
theorem unmatched_eq_false {w : Word} (h : fieldF w ∉ [0x0#4, 0x8#4, 0xE#4, 0xF#4]) :
    unmatched w = false := by
  rw [← Bool.not_eq_true, unmatched_iff]
  simp_all

/-- R70's fallback column, family by family. -/
theorem countFamily_unmatched {f : Nat} (hf : f < 16) : countFamily f unmatched =
    if f = 0x0 then 4094 else if f = 0x8 then 1792 else if f = 0xE then 4064
    else if f = 0xF then 3952 else 0 := by
  split_ifs with h0 h8 hE hF
  · subst h0
    have hexact : ∀ w, fieldF w = 0x0#4 →
        (unmatched w = true ↔ fieldNNN w ∉ [0x0E0#12, 0x0EE#12]) := by
      intro w hw
      have h1 : w = 0x00E0#16 ↔ fieldNNN w = 0x0E0#12 := eq_iff_fieldNNN hw
      have h2 : w = 0x00EE#16 ↔ fieldNNN w = 0x0EE#12 := eq_iff_fieldNNN hw
      simp [unmatched_iff, hw, h1, h2]
    rw [countFamily_congr (q := fun w => decide (fieldNNN w ∉ [0x0E0#12, 0x0EE#12]))
      fun w hw => Bool.eq_iff_iff.2 (by rw [hexact w hw, decide_eq_true_eq])]
    exact countFamily_fieldNNN_not_mem 0 (by decide)
  · subst h8
    rw [countFamily_congr (q := fun w => decide (8 ≤ (fieldN w).toNat ∧ (fieldN w).toNat ≤ 14))
      fun w hw => Bool.eq_iff_iff.2 (by simp [unmatched_iff, hw])]
    exact countFamily_fieldN 8 fun n => decide (8 ≤ n.toNat ∧ n.toNat ≤ 14)
  · subst hE
    rw [countFamily_congr (q := fun w => decide (fieldKK w ∉ [0x9E#8, 0xA1#8]))
      fun w hw => Bool.eq_iff_iff.2 (by simp [unmatched_iff, hw])]
    exact countFamily_fieldKK_not_mem 14 (by decide)
  · subst hF
    rw [countFamily_congr (q := fun w => decide (fieldKK w ∉
        [0x07#8, 0x0A#8, 0x15#8, 0x18#8, 0x1E#8, 0x29#8, 0x33#8, 0x55#8, 0x65#8]))
      fun w hw => Bool.eq_iff_iff.2 (by simp [unmatched_iff, hw])]
    exact countFamily_fieldKK_not_mem 15 (by decide)
  · have hne : ∀ v < 16, f ≠ v → BitVec.ofNat 4 f ≠ BitVec.ofNat 4 v := by
      intro v hv hfv
      bv_omega
    have hfam : BitVec.ofNat 4 f ∉ [0x0#4, 0x8#4, 0xE#4, 0xF#4] := by
      simp [hne 0x0 (by decide) h0, hne 0x8 (by decide) h8, hne 0xE (by decide) hE,
        hne 0xF (by decide) hF]
    rw [countFamily_congr fun w hw => unmatched_eq_false (hw ▸ hfam), countFamily_const]
    rfl

/-- The first condition of each set of R72 fixes the family. -/
theorem fieldF_of_guard {w v : Word} {rest : Bool} (hv : v = wordXYN (fieldF v) 0#4 0#4 0#4)
    (h : (w &&& 0xF000#16 == v && rest) = true) : fieldF w = fieldF v := by
  obtain ⟨hmask, -⟩ := Bool.and_eq_true_iff.1 h
  exact (match_family_iff w v hv).1 (beq_iff_eq.1 hmask)

/-- Each of the four sets is the unmatched words of one family. -/
theorem unmatched_sets_iff :
    (∀ w, unmatchedFamily0 w = true ↔ fieldF w = 0x0#4 ∧ unmatched w = true) ∧
    (∀ w, unmatchedFamily8 w = true ↔ fieldF w = 0x8#4 ∧ unmatched w = true) ∧
    (∀ w, unmatchedFamilyE w = true ↔ fieldF w = 0xE#4 ∧ unmatched w = true) ∧
    (∀ w, unmatchedFamilyF w = true ↔ fieldF w = 0xF#4 ∧ unmatched w = true) := by
  have h0 : ∀ w, unmatchedFamily0 w = true → fieldF w = 0x0#4 := by
    intro w h
    rw [unmatchedFamily0, Bool.and_assoc] at h
    exact fieldF_of_guard (v := 0x0000#16) (by decide) h
  have h8 : ∀ w, unmatchedFamily8 w = true → fieldF w = 0x8#4 := fun w h =>
    fieldF_of_guard (v := 0x8000#16) (by decide) h
  have hE : ∀ w, unmatchedFamilyE w = true → fieldF w = 0xE#4 := fun w h =>
    fieldF_of_guard (v := 0xE000#16) (by decide) h
  have hF : ∀ w, unmatchedFamilyF w = true → fieldF w = 0xF#4 := fun w h =>
    fieldF_of_guard (v := 0xF000#16) (by decide) h
  simp only [unmatched, Bool.or_eq_true]
  refine ⟨fun w => ?_, fun w => ?_, fun w => ?_, fun w => ?_⟩
  -- a word's family excludes the other three sets
  all_goals grind

/-- The unmatched words of one family, counted over all words. -/
theorem countWords_of_family {p : Word → Bool} {v : Nat} (hv : v < 16)
    (hp : ∀ w, p w = true ↔ fieldF w = BitVec.ofNat 4 v ∧ unmatched w = true) :
    countWords p = countFamily v unmatched := by
  have hcount : ∀ f < 16, countFamily f p = if v = f then countFamily v unmatched else 0 := by
    intro f hf
    split_ifs with hfv
    · subst hfv
      exact countFamily_congr fun w hw => Bool.eq_iff_iff.2 (by simp [hp, hw])
    · have hne : BitVec.ofNat 4 f ≠ BitVec.ofNat 4 v := by bv_omega
      rw [countFamily_congr (q := fun _ => false) fun w hw => by
        rw [← Bool.not_eq_true, hp, hw]; simp [hne], countFamily_const]
      rfl
  rw [countWords_eq_sum hcount, Finset.sum_ite_eq, if_pos (Finset.mem_range.2 hv)]

/-- Settles O27: the sets are the words without a row, counted family by family. -/
theorem unmatchedWordsAreTheFourSets : Obligations.UnmatchedWordsAreTheFourSets := by
  obtain ⟨h0, h8, hE, hF⟩ := unmatched_sets_iff
  refine ⟨no_row_iff_unmatched, wordsDrive_unmatched, ?_, ?_, ?_, ?_⟩
  · rw [countWords_of_family (v := 0x0) (by decide) h0, countFamily_unmatched (by decide)]
    rfl
  · rw [countWords_of_family (v := 0x8) (by decide) h8, countFamily_unmatched (by decide)]
    rfl
  · rw [countWords_of_family (v := 0xE) (by decide) hE, countFamily_unmatched (by decide)]
    rfl
  · rw [countWords_of_family (v := 0xF) (by decide) hF, countFamily_unmatched (by decide)]
    rfl

/-- R70's recognised words are those R72 does not list. -/
theorem recognised_eq (w : Word) : recognised w = !unmatched w := by
  have hvalid : recognised w = (refDecode w).op.isSome := by
    simp only [recognised, step_eq_next]
    rfl
  rw [hvalid, Bool.eq_iff_iff, Bool.not_eq_true', ← Bool.not_eq_true, ← refDecode_op_eq_none_iff,
    Option.isSome_iff_ne_none]

theorem countFamily_recognised {f : Nat} (hf : f < 16) : countFamily f recognised =
    if f = 0x0 then 2 else if f = 0x8 then 2304 else if f = 0xE then 32
    else if f = 0xF then 144 else 4096 := by
  rw [countFamily_congr fun w _ => recognised_eq w, countFamily_not, countFamily_unmatched hf]
  split_ifs <;> rfl

theorem countFamily_not_recognised {f : Nat} (hf : f < 16) :
    countFamily f (fun w => !recognised w) =
      if f = 0x0 then 4094 else if f = 0x8 then 1792 else if f = 0xE then 4064
      else if f = 0xF then 3952 else 0 := by
  rw [countFamily_congr (q := unmatched) fun w _ => by rw [recognised_eq, Bool.not_not]]
  exact countFamily_unmatched hf

/-- Settles O26: the sums of the families' numbers. -/
theorem recognisedWordCounts : Obligations.RecognisedWordCounts := by
  refine ⟨?_, ?_, fun f hf => ⟨countFamily_recognised hf, countFamily_not_recognised hf⟩⟩
  · rw [countWords_eq_sum fun f hf => countFamily_recognised hf]
    rfl
  · rw [countWords_eq_sum fun f hf => countFamily_not_recognised hf]
    rfl

end Sys2Proof.Proofs
end

section
/-! PROOFS. Control transfer, 41_control_transfer.md: RET, JPI, CALL and JPO (R100 to R103) and the rest
of family 0. A word under a row's pattern drives the wires of the row's format. -/

namespace Sys2Proof.Proofs

open Sys2Proof.Machine Sys2Proof.Laws Sys2Proof.Claims

/-! ### The words of one row of the table -/

/-- R63: from every state, the words that match a row under its mask drive the wires of its tag and the
fields of its format. -/
theorem wordsDrive_row {r : OpRow} (hr : r ∈ opcodeTable) {wires : Word → Ports}
    (hwires : ∀ w, portsOf (formatRecord r.format r.tag w) = wires w) :
    WordsDrive (fun w => w &&& r.mask = r.value) wires :=
  wordsDrive_of fun w hw => by rw [refDecode_of_matches hr ((matches_iff r w).2 hw), hwires]

/-- The rows of format `A`: the immediate is `w[11:0]`, widened with zeros. -/
theorem wordsDrive_rowA {t : Tag} {value mask : Word} (hr : ⟨t, .a, value, mask⟩ ∈ opcodeTable) :
    WordsDrive (fun w => w &&& mask = value) (fun w =>
      ⟨true, tagCode t, false, 0#4, false, 0#4, true, (w.extractLsb 11 0).setWidth 16⟩) :=
  wordsDrive_row hr fun w =>
    (congrArg portsOf (formatRecord_a t w)).trans (portsOf_recordA t (fieldNNN w))

/-! ### The words of family 0 -/

/-- R100: 0x00EE is the one word of the row RET. -/
theorem wordsDrive_ret : WordsDrive (fun w => w = 0x00EE#16)
    (fun _ => ⟨true, 2#6, false, 0#4, false, 0#4, false, 0#16⟩) := by
  rintro s w rest hs rfl
  exact wordsDrive_row (r := ⟨.RET, .exact, 0x00EE#16, 0xFFFF#16⟩) (by decide)
    (fun _ => portsOf_recordExact .RET) s _ rest hs rfl

/-- R68 and R72: family 0 without its two exact words drives the fallback wires. -/
theorem wordsDrive_family0 : WordsDrive
    (fun w => w &&& 0xF000#16 = 0x0000#16 ∧ w ≠ 0x00EE#16 ∧ w ≠ 0x00E0#16) rawWires := by
  refine wordsDrive_raw ?_
  rintro w ⟨hmask, hret, hcls⟩
  have hF : fieldF w = 0x0#4 := (match_family_iff w 0x0000#16 (by decide)).1 hmask
  exact (unmatched_iff w).2 (.inl ⟨hF, hcls, hret⟩)

/-- Settles O13: RET is an exact row and JPI, CALL and JPO are rows of format `A`; what is left of
family 0 is unmatched. -/
theorem controlTransferWords : Obligations.ControlTransferWords :=
  ⟨wordsDrive_ret, wordsDrive_family0, wordsDrive_rowA (t := .JPI) (by decide),
    wordsDrive_rowA (t := .CALL) (by decide), wordsDrive_rowA (t := .JPO) (by decide)⟩

end Sys2Proof.Proofs
end

section
/-! PROOFS. Conditional skips, 42_conditional_skip.md: SEI, SNEI, SE, SNE, SKP and SKNP (R110 to R115)
and the rest of family 14, by the formats of the table's rows. -/

namespace Sys2Proof.Proofs

open Sys2Proof.Machine Sys2Proof.Laws Sys2Proof.Claims

/-! ### The words of one row, by its format -/

/-- The rows of format `XK`: `vx` is `w[11:8]`, the immediate `w[7:0]`, widened with zeros. -/
theorem wordsDrive_rowXK {t : Tag} {value mask : Word} (hr : ⟨t, .xk, value, mask⟩ ∈ opcodeTable) :
    WordsDrive (fun w => w &&& mask = value) (fun w =>
      ⟨true, tagCode t, true, w.extractLsb 11 8, false, 0#4, true,
        (w.extractLsb 7 0).setWidth 16⟩) :=
  wordsDrive_row hr fun w =>
    (congrArg portsOf (formatRecord_xk t w)).trans (portsOf_recordXK t (fieldX w) (fieldKK w))

/-- The rows of format `XY-`: `vx` is `w[11:8]` and `vy` is `w[7:4]`; nibble 3 goes nowhere. -/
theorem wordsDrive_rowXYDash {t : Tag} {value mask : Word}
    (hr : ⟨t, .xyDash, value, mask⟩ ∈ opcodeTable) :
    WordsDrive (fun w => w &&& mask = value) (fun w =>
      ⟨true, tagCode t, true, w.extractLsb 11 8, true, w.extractLsb 7 4, false, 0#16⟩) :=
  wordsDrive_row hr fun w =>
    (congrArg portsOf (formatRecord_xyDash t w)).trans (portsOf_recordXY t (fieldX w) (fieldY w))

/-- The rows of format `XS`: `vx` alone is output. -/
theorem wordsDrive_rowXS {t : Tag} {value mask : Word} (hr : ⟨t, .xs, value, mask⟩ ∈ opcodeTable) :
    WordsDrive (fun w => w &&& mask = value) (fun w =>
      ⟨true, tagCode t, true, w.extractLsb 11 8, false, 0#4, false, 0#16⟩) :=
  wordsDrive_row hr fun w =>
    (congrArg portsOf (formatRecord_xs t w)).trans (portsOf_recordX t (fieldX w))

/-! ### The words of family 14 that have no row -/

/-- R68 and R72: family 14 without the low bytes of SKP and SKNP drives the fallback wires. -/
theorem wordsDrive_familyE : WordsDrive (fun w => w &&& 0xF000#16 = 0xE000#16 ∧
    w &&& 0x00FF#16 ≠ 0x009E#16 ∧ w &&& 0x00FF#16 ≠ 0x00A1#16) rawWires := by
  refine wordsDrive_raw ?_
  rintro w ⟨hmask, hskp, hsknp⟩
  have hF : fieldF w = 0xE#4 := (match_family_iff w 0xE000#16 (by decide)).1 hmask
  have hK : fieldKK w ∉ [0x9E#8, 0xA1#8] := by
    simp only [List.mem_cons, List.not_mem_nil, or_false, not_or]
    refine ⟨fun h => hskp ?_, fun h => hsknp ?_⟩
    · rw [and_byte, h]; rfl
    · rw [and_byte, h]; rfl
  exact (unmatched_iff w).2 (.inr (.inr (.inl ⟨hF, hK⟩)))

/-- Settles O14: SEI and SNEI are rows of format `XK`, SE and SNE of format `XY-`, SKP and SKNP of
format `XS`; what is left of family 14 is unmatched. -/
theorem conditionalSkipWords : Obligations.ConditionalSkipWords :=
  ⟨wordsDrive_rowXK (t := .SEI) (by decide), wordsDrive_rowXK (t := .SNEI) (by decide),
    wordsDrive_rowXYDash (t := .SE) (by decide), wordsDrive_rowXYDash (t := .SNE) (by decide),
    wordsDrive_rowXS (t := .SKP) (by decide), wordsDrive_rowXS (t := .SKNP) (by decide),
    wordsDrive_familyE⟩

end Sys2Proof.Proofs
end

section
/-! PROOFS. Register arithmetic, 43_register_arithmetic.md: LDI, ADD, LD, OR, AND, XOR, SUB, SHR, SUBN, SHL
and RND (R120 to R131), by the formats of the table's rows, and the word next to SHL that has no row. -/

namespace Sys2Proof.Proofs

open Sys2Proof.Machine Sys2Proof.Laws Sys2Proof.Claims

/-- The rows of format `XYS`: `vx` is `w[11:8]` and `vy` is `w[7:4]`; nibble 3 only selects the row. -/
theorem wordsDrive_rowXYS {t : Tag} {value mask : Word} (hr : ⟨t, .xys, value, mask⟩ ∈ opcodeTable) :
    WordsDrive (fun w => w &&& mask = value) (fun w =>
      ⟨true, tagCode t, true, w.extractLsb 11 8, true, w.extractLsb 7 4, false, 0#16⟩) :=
  wordsDrive_row hr fun w =>
    (congrArg portsOf (formatRecord_xys t w)).trans (portsOf_recordXY t (fieldX w) (fieldY w))

/-- R130, its corner case: 0x812E has sub-opcode 0xE, which R73 sends to the fallback. -/
theorem wordsDrive_812E : WordsDrive (fun w => w = 0x812E#16) rawWires := by
  obtain ⟨subOpcodeE, -⟩ := shlIsSubOpcodeF
  rintro s w rest hs rfl
  exact subOpcodeE s _ rest hs (by decide)

/-- Settles O15: LDI, the byte form of ADD and RND are rows of format `XK`, the nine operations of
family 8 rows of format `XYS`; 0x812E is unmatched. -/
theorem registerArithmeticWords : Obligations.RegisterArithmeticWords :=
  ⟨wordsDrive_rowXK (t := .LDI) (by decide), wordsDrive_rowXK (t := .ADD) (by decide),
    wordsDrive_rowXYS (t := .LD) (by decide), wordsDrive_rowXYS (t := .OR) (by decide),
    wordsDrive_rowXYS (t := .AND) (by decide), wordsDrive_rowXYS (t := .XOR) (by decide),
    wordsDrive_rowXYS (t := .ADD) (by decide), wordsDrive_rowXYS (t := .SUB) (by decide),
    wordsDrive_rowXYS (t := .SHR) (by decide), wordsDrive_rowXYS (t := .SUBN) (by decide),
    wordsDrive_rowXYS (t := .SHL) (by decide), wordsDrive_rowXK (t := .RND) (by decide),
    wordsDrive_812E⟩

end Sys2Proof.Proofs
end

section
/-! PROOFS. Memory and index, 44_memory_index.md: STI, ADD_I_VX, LD_F_VX, LD_B_VX, LD_MEM_VX and
LD_VX_MEM (R140 to R145), by the formats of the table's rows, and the word next to LD_VX_MEM that has
no row. -/

namespace Sys2Proof.Proofs

open Sys2Proof.Machine Sys2Proof.Laws Sys2Proof.Claims

/-- R68 for one given word: if it has no row, it drives the fallback wires. -/
theorem wordsDrive_unmatchedWord {v : Word} (hv : unmatched v = true) :
    WordsDrive (fun w => w = v) rawWires :=
  wordsDrive_raw fun _ hw => hw ▸ hv

/-- R145, its corner case: family 15 has no row with the low byte 0x66. -/
theorem wordsDrive_F066 : WordsDrive (fun w => w = 0xF066#16) rawWires :=
  wordsDrive_unmatchedWord (by decide)

/-- Settles O16: STI is a row of format `A`, the five operations of family 15 are rows of format `XS`;
0xF066 is unmatched. -/
theorem memoryIndexWords : Obligations.MemoryIndexWords :=
  ⟨wordsDrive_rowA (t := .STI) (by decide), wordsDrive_rowXS (t := .ADD_I_VX) (by decide),
    wordsDrive_rowXS (t := .LD_F_VX) (by decide), wordsDrive_rowXS (t := .LD_B_VX) (by decide),
    wordsDrive_rowXS (t := .LD_MEM_VX) (by decide), wordsDrive_rowXS (t := .LD_VX_MEM) (by decide),
    wordsDrive_F066⟩

end Sys2Proof.Proofs
end

section
/-! PROOFS. Timers, 45_timers.md: LD_VX_DT, LD_DT_VX and LD_ST_VX (R150 to R152), by the format of the
table's rows, and the word next to LD_VX_DT that has no row. -/

namespace Sys2Proof.Proofs

open Sys2Proof.Machine Sys2Proof.Laws Sys2Proof.Claims

/-- R150, its corner case: family 15 has no row with the low byte 0x08. -/
theorem wordsDrive_F008 : WordsDrive (fun w => w = 0xF008#16) rawWires :=
  wordsDrive_unmatchedWord (by decide)

/-- Settles O17: the three timer operations are rows of format `XS`; 0xF008 is unmatched. -/
theorem timerWords : Obligations.TimerWords :=
  ⟨wordsDrive_rowXS (t := .LD_VX_DT) (by decide), wordsDrive_F008,
    wordsDrive_rowXS (t := .LD_DT_VX) (by decide), wordsDrive_rowXS (t := .LD_ST_VX) (by decide)⟩

end Sys2Proof.Proofs
end

section
/-! PROOFS. Draw and input, 46_draw_input.md: CLS, DRW and LD_VX_K (R160 to R162), by the formats of the
table's rows, the neighbours of CLS, and what sets DRW apart: it alone has vx, vy and imm all present. -/

namespace Sys2Proof.Proofs

open Sys2Proof.Machine Sys2Proof.Laws Sys2Proof.Claims

/-! ### CLS and its neighbours -/

/-- R160: 0x00E0 is the one word of the row CLS. -/
theorem wordsDrive_cls : WordsDrive (fun w => w = 0x00E0#16)
    (fun _ => ⟨true, 1#6, false, 0#4, false, 0#4, false, 0#16⟩) := by
  rintro s w rest hs rfl
  exact wordsDrive_row (r := ⟨.CLS, .exact, 0x00E0#16, 0xFFFF#16⟩) (by decide)
    (fun _ => portsOf_recordExact .CLS) s _ rest hs rfl

/-- The words up to 0x0FFF are those of family 0. -/
theorem fieldF_eq_zero_of_le {w : Word} (h : w ≤ 0x0FFF#16) : fieldF w = 0x0#4 := by
  have hnat : w.toNat ≤ 0x0FFF := h
  apply BitVec.eq_of_toNat_eq
  rw [fieldF_eq_slice, BitVec.extractLsb_toNat, BitVec.toNat_ofNat]
  omega

/-- R160, its corner cases: every neighbour of CLS but RET is a word of family 0 without a row. -/
theorem wordsDrive_clsNeighbours : WordsDrive (fun w => (0x00E1#16 ≤ w ∧ w ≤ 0x00ED#16) ∨
    w = 0x00EF#16 ∨ w = 0x00F0#16 ∨ w = 0x01E0#16) rawWires := by
  refine wordsDrive_raw ?_
  rintro w (⟨hlow, hhigh⟩ | rfl | rfl | rfl)
  · have hF : fieldF w = 0x0#4 := fieldF_eq_zero_of_le (by bv_omega)
    exact (unmatched_iff w).2 (.inl ⟨hF, by bv_omega, by bv_omega⟩)
  all_goals decide

/-! ### DRW, the one row of format `XYN` -/

/-- The rows of format `XYN`: `vx` is `w[11:8]`, `vy` is `w[7:4]` and the immediate is `w[3:0]`, widened
with zeros. -/
theorem wordsDrive_rowXYN {t : Tag} {value mask : Word} (hr : ⟨t, .xyn, value, mask⟩ ∈ opcodeTable) :
    WordsDrive (fun w => w &&& mask = value) (fun w =>
      ⟨true, tagCode t, true, w.extractLsb 11 8, true, w.extractLsb 7 4, true,
        (w.extractLsb 3 0).setWidth 16⟩) :=
  wordsDrive_row hr fun w => (congrArg portsOf (formatRecord_xyn t w)).trans
    (portsOf_recordXYN t (fieldX w) (fieldY w) (fieldN w))

/-- R64: `XYN` is the one format with `vx`, `vy` and an immediate. -/
theorem format_eq_xyn_of_all_present {f : Format} {t : Tag} {w : Word}
    (hx : (portsOf (formatRecord f t w)).vxValid = true)
    (hy : (portsOf (formatRecord f t w)).vyValid = true)
    (himm : (portsOf (formatRecord f t w)).immValid = true) : f = .xyn := by
  cases f with
  | xyn => rfl
  | exact | a | raw => cases hx
  | xk | xs => cases hy
  | xyDash | xys => cases himm

/-- R161: a step whose outputs have `vx`, `vy` and `imm` all present drives DRW. -/
theorem step_drives_drw_of_all_present {s t : State} (h : step s = .next t)
    (hx : t.out.vxValid = true) (hy : t.out.vyValid = true) (himm : t.out.immValid = true) :
    t.out.opValid = true ∧ t.out.op = 24#6 := by
  have hdrw : ∀ r ∈ opcodeTable, r.format = .xyn → r.tag = .DRW := by decide
  by_cases hu : unmatched t.word = true
  · rw [step_out h, refDecode_of_unmatched hu] at hx
    cases hx
  · obtain ⟨r, hr, hm⟩ := exists_row_of_not_unmatched hu
    have hout := step_out_of_matches h hr hm
    rw [hout] at hx hy himm
    have hformat : r.format = .xyn := format_eq_xyn_of_all_present hx hy himm
    rw [hout, hformat, hdrw r hr hformat]
    exact ⟨rfl, rfl⟩

/-- Settles O18: CLS and RET are exact rows, DRW is the row of format `XYN` and LD_VX_K one of format
`XS`; the other neighbours of CLS are unmatched. -/
theorem drawInputWords : Obligations.DrawInputWords :=
  ⟨wordsDrive_cls, wordsDrive_clsNeighbours, wordsDrive_ret, wordsDrive_rowXYN (t := .DRW) (by decide),
    wordsDrive_rowXS (t := .LD_VX_K) (by decide), fun _ _ => step_drives_drw_of_all_present⟩

end Sys2Proof.Proofs
end

section
/-! PROOFS. The independence of the two blocks, 60_exceptions.md section 5 (R181): the extractor's ports
follow its own inputs, by R61. -/

namespace Sys2Proof.Proofs

open Sys2Proof.Machine Sys2Proof.Laws

/-- R61: a settled extractor's ports are determined by its inputs. -/
theorem extractor_eq_of_inputs_eq {n n' : NibbleExtractor} (hn : n.nib = nib n.word n.idx)
    (hn' : n'.nib = nib n'.word n'.idx) (hword : n.word = n'.word) (hidx : n.idx = n'.idx) : n = n' := by
  have hnib : n.nib = n'.nib := by rw [hn, hn', hword, hidx]
  cases n
  cases n'
  exact (NibbleExtractor.mk.injEq ..).mpr ⟨hword, hidx, hnib⟩

/-- What a step leaves on the extractor's inputs: its next pending pair, or the inputs already there. -/
theorem step_extractor_inputs {s t : State} (h : step s = .next t) :
    (t.nx.word, t.nx.idx) = s.nxPending.headD (s.nx.word, s.nx.idx) := by
  obtain ⟨-, -, hnx, -⟩ := step_inputs h
  rw [hnx, presentNibble_nx_word, presentNibble_nx_idx]

/-- Settles O35: a step leaves the extractor settled on inputs that come from its own queue or its own
ports. -/
theorem extractorDependsOnItsOwnInputsAlone : Obligations.ExtractorDependsOnItsOwnInputsAlone := by
  intro s t s' t' h h' hword hidx hpending
  have hinputs : (t.nx.word, t.nx.idx) = (t'.nx.word, t'.nx.idx) := by
    rw [step_extractor_inputs h, hword, hidx, hpending, step_extractor_inputs h']
  obtain ⟨hnxWord, hnxIdx⟩ := Prod.mk.inj hinputs
  obtain ⟨-, hnib⟩ := step_settles h
  obtain ⟨-, hnib'⟩ := step_settles h'
  exact extractor_eq_of_inputs_eq hnib hnib' hnxWord hnxIdx

end Sys2Proof.Proofs
end

section
/-! PROOFS. Sampling, 70_reset_and_hazards.md section 2 (R193): from `T_PD` on a consumer reads the settled
outputs. -/

namespace Sys2Proof.Proofs

open Sys2Proof.Machine Sys2Proof.Laws

/-- R193: a sample taken `T_PD` or more after the input stopped changing is the settled outputs. -/
theorem sampleAt_of_tPD_le {elapsed : Nat} (h : Config.tPD ≤ elapsed) (k : Nat) (s : State) :
    sampleAt elapsed k s = s.out :=
  if_pos h

/-- Settles O41: from `T_PD` on the sample is the outputs, which a step leaves at the wires of the reference
decode, and reading those wires back recovers the record. -/
theorem sampleAfterSettlingIsTheDecode : Obligations.SampleAfterSettlingIsTheDecode := by
  intro s t elapsed k h helapsed
  rw [sampleAt_of_tPD_le helapsed, step_out h, recordOf_portsOf]

end Sys2Proof.Proofs
end

section
/-! PROOFS. The outputs identify the word, 95_test_vectors.md V-PR4: a record names its row of the table,
and the row with the fields of its format gives the word back, but for nibble 3 of SE and SNE. -/

namespace Sys2Proof.Proofs

open Sys2Proof.Machine Sys2Proof.Laws

/-! ### A record names its row -/

/-- R71: rows of one tag are one row, but for the two forms of ADD. -/
theorem row_eq_or_add_of_tag_eq : ∀ r ∈ opcodeTable, ∀ r' ∈ opcodeTable, r.tag = r'.tag →
    r = r' ∨ r.format = .xk ∧ r'.format = .xys ∨ r.format = .xys ∧ r'.format = .xk := by
  decide

/-- Rows that give the same record are one row: the two forms of ADD differ in whether `vy` is present. -/
theorem row_eq_of_formatRecord_eq {v w : Word} {r r' : OpRow} (hr : r ∈ opcodeTable)
    (hr' : r' ∈ opcodeTable)
    (h : formatRecord r.format r.tag v = formatRecord r'.format r'.tag w) : r = r' := by
  have hraw : ∀ r ∈ opcodeTable, r.format ≠ .raw := by decide
  have htag : r.tag = r'.tag := by
    have hop := congrArg Decoded.op h
    rw [formatRecord_op (hraw r hr), formatRecord_op (hraw r' hr')] at hop
    exact Option.some.inj hop
  have hvy := congrArg Decoded.vy h
  rcases row_eq_or_add_of_tag_eq r hr r' hr' htag with heq | ⟨hf, hf'⟩ | ⟨hf, hf'⟩
  · exact heq
  all_goals
    rw [hf, hf'] at hvy
    cases hvy

/-! ### A row and the fields of its format give the word -/

/-- Widening with zeros loses no bit. -/
theorem zext16_inj {n : Nat} (hn : n ≤ 16) {a b : BitVec n} (h : zext16 a = zext16 b) : a = b :=
  BitVec.eq_of_toNat_eq (by rw [← zext16_toNat hn a, h, zext16_toNat hn b])

/-- What a row's format says about the part of the word that the format does not read: the mask covers
it, or it is nibble 3 of family 5 or 9. -/
theorem mask_of_format : ∀ r ∈ opcodeTable,
    (r.format = .exact → r.mask = 0xFFFF#16) ∧
    (r.format = .xyDash → fieldF r.value = 0x5#4 ∨ fieldF r.value = 0x9#4) ∧
    (r.format = .xys → r.mask = 0xF00F#16) ∧
    (r.format = .xs → r.mask = 0xF0FF#16) ∧ r.format ≠ .raw := by
  decide

/-- The slice `w[15:4]` of a word does not read its nibble 3. -/
theorem slice_wordXYN (f : Nibble) (x y : RegIdx) (n m : Nibble) :
    (wordXYN f x y n).extractLsb 15 4 = (wordXYN f x y m).extractLsb 15 4 := by
  apply BitVec.eq_of_getLsbD_eq; intro i hi
  have h4 : ¬ 4 + i < 4 := by omega
  simp [getLsbD_wordXYN, h4]

/-- The family and the two registers of a word are its bits 15:4. -/
theorem slice_of_fields {v w : Word} (hF : fieldF v = fieldF w) (hX : fieldX v = fieldX w)
    (hY : fieldY v = fieldY w) : v.extractLsb 15 4 = w.extractLsb 15 4 := by
  rw [← wordXYN_fields v, ← wordXYN_fields w, hF, hX, hY]
  exact slice_wordXYN ..

/-- V-PR4 for the words of one row: the bits under the row's mask and the fields of its format are all
the word, unless the format is `XY-`, whose nibble 3 neither of them reads. -/
theorem word_eq_or_slice_eq_of_formatRecord_eq {v w : Word} {r : OpRow} (hr : r ∈ opcodeTable)
    (hv : r.matches v = true) (hw : r.matches w = true)
    (h : formatRecord r.format r.tag v = formatRecord r.format r.tag w) :
    v = w ∨ (v.extractLsb 15 4 = w.extractLsb 15 4 ∧ (fieldF v = 0x5#4 ∨ fieldF v = 0x9#4)) := by
  obtain ⟨hexact, hdash, hxys, hxs, hraw⟩ := mask_of_format r hr
  have hF : fieldF v = fieldF w := (fieldF_of_matches hr hv).trans (fieldF_of_matches hr hw).symm
  have hmasked : v &&& r.mask = w &&& r.mask :=
    ((matches_iff r v).1 hv).trans ((matches_iff r w).1 hw).symm
  cases hf : r.format with
  | raw => exact absurd hf hraw
  | exact =>
    exact .inl ((eq_value_of_matches (hexact hf) hv).trans (eq_value_of_matches (hexact hf) hw).symm)
  | a =>
    simp only [hf, formatRecord_a, recordA, Decoded.mk.injEq, Option.some.injEq, true_and] at h
    have hN : fieldNNN v = fieldNNN w := zext16_inj (by decide) h
    exact .inl ((eq_iff_fieldNNN hF).2 hN)
  | xk =>
    simp only [hf, formatRecord_xk, recordXK, Decoded.mk.injEq, Option.some.injEq, true_and] at h
    obtain ⟨hX, hK⟩ := h
    exact .inl (word_ext_XK hF hX (zext16_inj (by decide) hK))
  | xyDash =>
    simp only [hf, formatRecord_xyDash, recordXY, Decoded.mk.injEq, Option.some.injEq, true_and,
      and_true] at h
    obtain ⟨hX, hY⟩ := h
    exact .inr ⟨slice_of_fields hF hX hY, fieldF_of_matches hr hv ▸ hdash hf⟩
  | xys =>
    simp only [hf, formatRecord_xys, recordXY, Decoded.mk.injEq, Option.some.injEq, true_and,
      and_true] at h
    obtain ⟨hX, hY⟩ := h
    rw [hxys hf, and_family_nibble, and_family_nibble] at hmasked
    have hN : fieldN v = fieldN w := by simpa using congrArg fieldN hmasked
    exact .inl (word_ext_nibbles hF hX hY hN)
  | xyn =>
    simp only [hf, formatRecord_xyn, recordXYN, Decoded.mk.injEq, Option.some.injEq, true_and] at h
    obtain ⟨hX, hY, hN⟩ := h
    exact .inl (word_ext_nibbles hF hX hY (zext16_inj (by decide) hN))
  | xs =>
    simp only [hf, formatRecord_xs, recordX, Decoded.mk.injEq, Option.some.injEq, true_and,
      and_true] at h
    rw [hxs hf, and_family_byte, and_family_byte] at hmasked
    have hK : fieldKK v = fieldKK w := by simpa using congrArg fieldKK hmasked
    exact .inl (word_ext_XK hF h hK)

/-! ### All words -/

/-- V-PR4: a record comes from one word, or from the 16 words of a family that ignores nibble 3. -/
theorem word_eq_or_slice_eq_of_refDecode_eq {v w : Word} (h : refDecode v = refDecode w) :
    v = w ∨ (v.extractLsb 15 4 = w.extractLsb 15 4 ∧ (fieldF v = 0x5#4 ∨ fieldF v = 0x9#4)) := by
  by_cases hv : unmatched v = true
  · have hw : unmatched w = true := by
      rwa [← refDecode_op_eq_none_iff, ← h, refDecode_op_eq_none_iff]
    rw [refDecode_of_unmatched hv, refDecode_of_unmatched hw] at h
    exact .inl (Option.some.inj (congrArg Decoded.imm h))
  · have hw : unmatched w ≠ true := by
      rwa [ne_eq, ← refDecode_op_eq_none_iff, ← h, refDecode_op_eq_none_iff]
    obtain ⟨r, hr, hm⟩ := exists_row_of_not_unmatched hv
    obtain ⟨r', hr', hm'⟩ := exists_row_of_not_unmatched hw
    rw [refDecode_of_matches hr hm, refDecode_of_matches hr' hm'] at h
    obtain rfl := row_eq_of_formatRecord_eq hr hr' h
    exact word_eq_or_slice_eq_of_formatRecord_eq hr hm hm' h

/-- Settles O30: reading the wires back gives the record, which identifies the word; conversely the
wires follow the word, and families 5 and 9 ignore nibble 3. -/
theorem outputsIdentifyTheWord : Obligations.OutputsIdentifyTheWord := by
  intro s t s' t' h h'
  constructor
  · intro hout
    have hrecord : refDecode t.word = refDecode t'.word := by
      rw [← recordOf_portsOf (refDecode t.word), ← step_out h, hout, step_out h', recordOf_portsOf]
    exact word_eq_or_slice_eq_of_refDecode_eq hrecord
  · rintro (hword | ⟨hslice, hfamily⟩)
    · rw [step_out h, step_out h', hword]
    · exact (familiesFiveAndNineIgnoreNibbleThree s t s' t' h h' hfamily hslice).1

end Sys2Proof.Proofs
end

section
/-! PROOFS. Power-up (70_reset_and_hazards.md section 1), how a step reaches a meaning (20_memory.md section 1,
30_encoding.md section 5), and the frame of every instruction (20_memory.md R44). -/

namespace Sys2Proof.Proofs

open Sys2Proof.Machine Sys2Proof.Laws

/-- Settles O12: every instruction drives one record, which changes the outputs alone. -/
theorem everyInstructionTouchesOnlyTheOutputs :
    Obligations.EveryInstructionTouchesOnlyTheOutputs := by
  intro i s t s' t' h h'
  obtain ⟨d, hd⟩ := exec_drives i
  rw [hd, drive_next_iff] at h h'
  subst h h'
  exact ⟨rfl, rfl, rfl, rfl, rfl⟩

/-- Settles O1: the word 0x0000 on the input at reset is unmatched, so its wires are the raw word's. -/
theorem resetStateIsSettled : Obligations.ResetStateIsSettled := by
  have hout : State.reset.out = portsOf (refDecode State.reset.word) := by
    rw [refDecode_of_unmatched (by decide)]
    rfl
  exact ⟨⟨hout, rfl⟩, rfl, rfl⟩

/-! ### The word a step decodes -/

theorem presentWord_cons {s : State} {w : Word} {rest : List Word} (h : s.pending = w :: rest) :
    presentWord s = { s with word := w, pending := rest } := by
  unfold presentWord
  rw [h]

theorem presentWord_nil {s : State} (h : s.pending = []) : presentWord s = s := by
  unfold presentWord
  rw [h]

/-- With a word pending, a step runs the instruction of that word. -/
theorem step_of_pending_cons {s : State} {w : Word} {rest : List Word} (h : s.pending = w :: rest) :
    step s = exec (decodeWord w) (presentNibble { s with word := w, pending := rest }) := by
  rw [step_eq_exec, present, presentWord_cons h, presentNibble_word]

/-- With no word pending, a step runs the instruction of the word already on the input. -/
theorem step_of_pending_nil {s : State} (h : s.pending = []) :
    step s = exec (decodeWord s.word) (presentNibble s) := by
  rw [step_eq_exec, present, presentWord_nil h, presentNibble_word]

/-- R40: the two bytes of a word, high byte first, decode to the word's instruction. -/
theorem decodeBytes_slices (w : Word) :
    decodeBytes [w.extractLsb 15 8, w.extractLsb 7 0] = .ok (decodeWord w, []) := by
  have hbytes : wordOfBytes (w.extractLsb 15 8) (w.extractLsb 7 0) = w := wordOfBytes_bytes w
  rw [decodeBytes_cons, hbytes]

theorem decodeWord_of_decodeBytes_slices {w : Word} {i : Instr}
    (h : decodeBytes [w.extractLsb 15 8, w.extractLsb 7 0] = .ok (i, [])) : decodeWord w = i := by
  rw [decodeBytes_slices] at h
  exact congrArg Prod.fst (Except.ok.inj h)

/-- Settles O2: a step runs the instruction of the word it puts on the input, which is the one the
word's bytes decode to. -/
theorem stepRunsTheDecodedInstruction : Obligations.StepRunsTheDecodedInstruction := by
  constructor
  · intro s w rest i hs hi
    rw [step_of_pending_cons hs, decodeWord_of_decodeBytes_slices hi]
  · intro s i hs hi
    rw [step_of_pending_nil hs, decodeWord_of_decodeBytes_slices hi]

/-- Settles O3: `withFetchWord` makes the table word the next pending one. -/
theorem fetchWordRunsNext : Obligations.FetchWordRunsNext := by
  intro s nbits w i hi
  rw [decodeTableWord_eq, Option.some.injEq] at hi
  rw [step_of_pending_cons (withFetchWord_pending s nbits w), hi]
  rfl

/-- Settles O4: the twelve words are fixed, so their decode is computed. -/
theorem workedExampleWordsDecode : Obligations.WorkedExampleWordsDecode := by
  unfold Obligations.WorkedExampleWordsDecode
  decide

end Sys2Proof.Proofs
end

section
/-! PROOFS. What each instruction drives, 41_control_transfer.md to 46_draw_input.md: every meaning drives the
record of its format (30_encoding.md R63 and R64), so its wires are the tag's code and that format's. -/

namespace Sys2Proof.Proofs

open Sys2Proof.Machine Sys2Proof.Laws

/-! ### Driving a record of each format -/

theorem drive_recordExact (t : Tag) (s : State) : drive (recordExact t) s =
    .next { s with out := ⟨true, tagCode t, false, 0#4, false, 0#4, false, 0#16⟩ } := by
  rw [drive, portsOf_recordExact]

theorem drive_recordA (t : Tag) (nnn : Addr) (s : State) : drive (recordA t nnn) s =
    .next { s with out := ⟨true, tagCode t, false, 0#4, false, 0#4, true, zext16 nnn⟩ } := by
  rw [drive, portsOf_recordA]

theorem drive_recordXK (t : Tag) (x : RegIdx) (kk : Byte) (s : State) : drive (recordXK t x kk) s =
    .next { s with out := ⟨true, tagCode t, true, x, false, 0#4, true, zext16 kk⟩ } := by
  rw [drive, portsOf_recordXK]

theorem drive_recordXY (t : Tag) (x y : RegIdx) (s : State) : drive (recordXY t x y) s =
    .next { s with out := ⟨true, tagCode t, true, x, true, y, false, 0#16⟩ } := by
  rw [drive, portsOf_recordXY]

theorem drive_recordXYN (t : Tag) (x y : RegIdx) (n : Nibble) (s : State) :
    drive (recordXYN t x y n) s =
      .next { s with out := ⟨true, tagCode t, true, x, true, y, true, zext16 n⟩ } := by
  rw [drive, portsOf_recordXYN]

theorem drive_recordX (t : Tag) (x : RegIdx) (s : State) : drive (recordX t x) s =
    .next { s with out := ⟨true, tagCode t, true, x, false, 0#4, false, 0#16⟩ } := by
  rw [drive, portsOf_recordX]

theorem drive_recordRaw (w : Word) (s : State) : drive (recordRaw w) s =
    .next { s with out := ⟨false, 0#6, false, 0#4, false, 0#4, true, w⟩ } := by
  rw [drive, portsOf_recordRaw]

/-! ### The obligations, each instruction by its format -/

/-- Settles O5: RET is of format `EXACT`; JPI, CALL and JPO are of format `A`. -/
theorem controlTransferCompletes : Obligations.ControlTransferCompletes := fun s nnn =>
  ⟨drive_recordExact .RET s, drive_recordA .JPI nnn s, drive_recordA .CALL nnn s,
    drive_recordA .JPO nnn s⟩

/-- Settles O6: SEI and SNEI are of format `XK`, SE and SNE of format `XY-`, SKP and SKNP of `XS`. -/
theorem conditionalSkipCompletes : Obligations.ConditionalSkipCompletes := fun s x y kk =>
  ⟨drive_recordXK .SEI x kk s, drive_recordXK .SNEI x kk s, drive_recordXY .SE x y s,
    drive_recordXY .SNE x y s, drive_recordX .SKP x s, drive_recordX .SKNP x s⟩

/-- Settles O7: LDI, the byte form of ADD and RND are of format `XK`. -/
theorem byteConstantArithmeticCompletes : Obligations.ByteConstantArithmeticCompletes :=
  fun s x kk =>
    ⟨drive_recordXK .LDI x kk s, drive_recordXK .ADD x kk s, drive_recordXK .RND x kk s⟩

/-- Settles O8: the nine operations of family 8 are of format `XYS`. -/
theorem registerPairArithmeticCompletes : Obligations.RegisterPairArithmeticCompletes :=
  fun s x y =>
    ⟨drive_recordXY .LD x y s, drive_recordXY .OR x y s, drive_recordXY .AND x y s,
      drive_recordXY .XOR x y s, drive_recordXY .ADD x y s, drive_recordXY .SUB x y s,
      drive_recordXY .SHR x y s, drive_recordXY .SUBN x y s, drive_recordXY .SHL x y s⟩

/-- Settles O9: STI is of format `A`, the five operations of family 15 are of format `XS`. -/
theorem memoryIndexCompletes : Obligations.MemoryIndexCompletes := fun s x nnn =>
  ⟨drive_recordA .STI nnn s, drive_recordX .ADD_I_VX x s, drive_recordX .LD_F_VX x s,
    drive_recordX .LD_B_VX x s, drive_recordX .LD_MEM_VX x s, drive_recordX .LD_VX_MEM x s⟩

/-- Settles O10: the three timer operations are of format `XS`. -/
theorem timersComplete : Obligations.TimersComplete := fun s x =>
  ⟨drive_recordX .LD_VX_DT x s, drive_recordX .LD_DT_VX x s, drive_recordX .LD_ST_VX x s⟩

/-- Settles O11: CLS is of format `EXACT`, DRW of `XYN`, LD_VX_K of `XS` and the fallback of `RAW`. -/
theorem drawInputAndFallbackComplete : Obligations.DrawInputAndFallbackComplete := fun s x y n w =>
  ⟨drive_recordExact .CLS s, drive_recordXYN .DRW x y n s, drive_recordX .LD_VX_K x s,
    drive_recordRaw w s⟩

end Sys2Proof.Proofs
end
